-- ==== Sys2Proof/Word.lean ====
section
/-! DEFINITION. The words of the block: a byte (a channel value or a payload byte), a bit, the 32-bit
header word, and a four-byte group. All are unsigned (`00_scope.md` R9, R12). -/

namespace Sys2Proof

/-- A channel value or a payload byte, 0 to 255; bit 0 is the least significant (R9, R12). -/
abbrev Byte := BitVec 8

/-- A bit of a bit sequence, 0 or 1 (R12, R87). -/
abbrev Bit := BitVec 1

/-- The 32-bit header word (R9, R11), the operand type `u32` (R87). -/
abbrev Word := BitVec 32

/-- The operand type `byte[4]` (R88): four bytes in order, `b0` first. -/
structure Bytes4 where
  b0 : Byte
  b1 : Byte
  b2 : Byte
  b3 : Byte
  deriving DecidableEq, Repr

/-- The four bytes as the byte sequence `[b0, b1, b2, b3]` (R13). -/
def Bytes4.toList (b : Bytes4) : List Byte := [b.b0, b.b1, b.b2, b.b3]

end Sys2Proof
end

