-- ==== Sys2Proof/Syntax.lean ====
section
/-! DEFINITION. The syntax of the block's operations: one constructor of `Instr` for each of the twelve
rows of the operation table (`30_encoding.md` R88), the command word and its operand record (R86, R87)
as the host presents them, and the mnemonics. -/

namespace Sys2Proof

/-- The twelve operations of `30_encoding.md` R88 with their operands. A `u32`, `byte`, `bit` or
`byte[4]` operand cannot be out of range by its type (R90). -/
inductive Instr where
  /-- `B2BITS bytes`: bytes to bits (R111). -/
  | b2bits (bytes : List Byte)
  /-- `SOPEN`: create the extraction stream (R113). -/
  | sopen
  /-- `PULL`: pull the next bit (R115). -/
  | pull
  /-- `BITS2I n`: the next n bits as a number (R117). -/
  | bits2i (n : BitVec 6)
  /-- `I2B n`: header encode (R131). -/
  | i2b (n : Word)
  /-- `B2I b`: header decode (R133). -/
  | b2i (b : Bytes4)
  /-- `LSBR v`: bit-select (R141). -/
  | lsbr (v : Byte)
  /-- `LSBW v, b`: LSB-replace (R143). -/
  | lsbw (v : Byte) (b : Bit)
  /-- `PIXR i`: the LSBs of one pixel (R147). -/
  | pixr (i : Nat)
  /-- `PIXW i, g`: replace the LSBs of one pixel (R148). -/
  | pixw (i : Nat) (g : List Bit)
  /-- `EMBED` (R157). -/
  | embed
  /-- `EXTRACT` (R177). -/
  | extract
  deriving DecidableEq, Repr

/-- The operand record of `30_encoding.md` R87: "named, typed values" that accompany the command word.
Each operation reads the fields its row of R88 names and no other (log 6). -/
structure Operands where
  /-- `bytes` of B2BITS. -/
  bytes : List Byte
  /-- `n : u6` of BITS2I. -/
  n6 : BitVec 6
  /-- `n : u32` of I2B. -/
  n32 : Word
  /-- `b : byte[4]` of B2I. -/
  b4 : Bytes4
  /-- `v : byte` of LSBR and LSBW. -/
  v : Byte
  /-- `b : bit` of LSBW. -/
  b : Bit
  /-- `i : pixidx` of PIXR and PIXW. -/
  i : Nat
  /-- `g : bits[C]` of PIXW. -/
  g : List Bit
  deriving DecidableEq, Repr

/-- The record of zeros: what an operation's operands are when nothing is said of them. -/
def Operands.zero : Operands :=
  { bytes := [], n6 := 0, n32 := 0, b4 := ⟨0, 0, 0, 0⟩, v := 0, b := 0, i := 0, g := [] }

/-- A command as the host presents it: "a command word `CW` of 8 bits plus a typed operand record"
(`30_encoding.md` R86). -/
structure Command where
  cw : BitVec 8
  ops : Operands
  deriving DecidableEq, Repr

/-- The mnemonic of each operation (`30_encoding.md` R88). -/
def Instr.mnemonic : Instr → String
  | .b2bits _ => "B2BITS"
  | .sopen => "SOPEN"
  | .pull => "PULL"
  | .bits2i _ => "BITS2I"
  | .i2b _ => "I2B"
  | .b2i _ => "B2I"
  | .lsbr _ => "LSBR"
  | .lsbw _ _ => "LSBW"
  | .pixr _ => "PIXR"
  | .pixw _ _ => "PIXW"
  | .embed => "EMBED"
  | .extract => "EXTRACT"

end Sys2Proof
end

