-- ==== Sys2Proof/Decode.lean ====
section
/-! DEFINITION. Decoding a command (`30_encoding.md` R86 to R88, R91), total, rejecting reserved words by
name; the encoder, written from the same table; and `decodeTableWord`, the decoder on the bits of the
operation table alone. -/

namespace Sys2Proof

/-- One row of the operation table of R88: "a word selects the row when `CW & mask == match`". -/
structure OpRow where
  mnemonic : String
  mask : BitVec 8
  pattern : BitVec 8
  deriving DecidableEq, Repr

/-- The operation table of R88, row by row. -/
def opcodeTable : List OpRow :=
  [ ⟨"B2BITS", 0xFF, 0x01⟩, ⟨"SOPEN", 0xFF, 0x02⟩, ⟨"PULL", 0xFF, 0x03⟩, ⟨"BITS2I", 0xFF, 0x04⟩,
    ⟨"I2B", 0xFF, 0x05⟩, ⟨"B2I", 0xFF, 0x06⟩, ⟨"LSBR", 0xFF, 0x07⟩, ⟨"LSBW", 0xFF, 0x08⟩,
    ⟨"PIXR", 0xFF, 0x09⟩, ⟨"PIXW", 0xFF, 0x0A⟩, ⟨"EMBED", 0xFF, 0x0B⟩, ⟨"EXTRACT", 0xFF, 0x0C⟩ ]

/-- A word selects a row (R88). -/
def OpRow.selects (r : OpRow) (cw : BitVec 8) : Bool := cw &&& r.mask == r.pattern

/-- Why a command word is reserved (R91): a nonzero `RSV` field, or an unassigned `OP`. -/
inductive Reserved where
  | rsv (field : BitVec 4)
  | op (code : BitVec 4)
  deriving DecidableEq, Repr

/-- Field `RSV` = CW[7:4] (R86). -/
def rsvField (cw : BitVec 8) : BitVec 4 := cw.extractLsb' 4 4

/-- Field `OP` = CW[3:0] (R86). -/
def opField (cw : BitVec 8) : BitVec 4 := cw.extractLsb' 0 4

/-- The operation an `OP` code selects, with the operands its row of R88 names. -/
def decodeOp (op : BitVec 4) (o : Operands) : Except Reserved Instr :=
  match op.toNat with
  | 0x1 => .ok (.b2bits o.bytes)
  | 0x2 => .ok .sopen
  | 0x3 => .ok .pull
  | 0x4 => .ok (.bits2i o.n6)
  | 0x5 => .ok (.i2b o.n32)
  | 0x6 => .ok (.b2i o.b4)
  | 0x7 => .ok (.lsbr o.v)
  | 0x8 => .ok (.lsbw o.v o.b)
  | 0x9 => .ok (.pixr o.i)
  | 0xA => .ok (.pixw o.i o.g)
  | 0xB => .ok .embed
  | 0xC => .ok .extract
  | _ => .error (.op op)

/-- Decode a command: `RSV` first, then `OP` (R91, and the order of `60_exceptions.md` R201). -/
def decode (cmd : Command) : Except Reserved Instr :=
  if rsvField cmd.cw = 0 then decodeOp (opField cmd.cw) cmd.ops
  else .error (.rsv (rsvField cmd.cw))

/-- The command that stands for an operation: its word of R88 and its operands in the record. -/
def encode : Instr → Command
  | .b2bits bytes => ⟨0x01#8, { Operands.zero with bytes := bytes }⟩
  | .sopen => ⟨0x02#8, Operands.zero⟩
  | .pull => ⟨0x03#8, Operands.zero⟩
  | .bits2i n => ⟨0x04#8, { Operands.zero with n6 := n }⟩
  | .i2b n => ⟨0x05#8, { Operands.zero with n32 := n }⟩
  | .b2i b => ⟨0x06#8, { Operands.zero with b4 := b }⟩
  | .lsbr v => ⟨0x07#8, { Operands.zero with v := v }⟩
  | .lsbw v b => ⟨0x08#8, { Operands.zero with v := v, b := b }⟩
  | .pixr i => ⟨0x09#8, { Operands.zero with i := i }⟩
  | .pixw i g => ⟨0x0A#8, { Operands.zero with i := i, g := g }⟩
  | .embed => ⟨0x0B#8, Operands.zero⟩
  | .extract => ⟨0x0C#8, Operands.zero⟩

/-- The command whose word has the table's bits `w` and whose operand record is zero: the operation
table gives operands no bits (`30_encoding.md` R87, log 6). -/
def tableCommand (w : Nat) : Command := ⟨BitVec.ofNat 8 w, Operands.zero⟩

/-- The instruction the decoder reads from the `nbits` bits `w` of an operation-table row. The table has
one length, 8 bits (R86, R94). -/
def decodeTableWord (nbits w : Nat) : Option Instr :=
  if nbits = 8 then (decode (tableCommand w)).toOption else none

end Sys2Proof
end

