-- ==== Sys2Proof/Config.lean ====
section
/-! DEFINITION. The quantities that are fixed for the block and are not state (`10_state.md` R36,
`00_scope.md` R9), and the one choice of the model's memory form. The widths `W_BITS`, `H_BITS`,
`C_BITS` and `PLEN_BITS` are OPEN in the spec; the model takes the four inputs as unbounded natural
numbers (DESIGN CHOICE, log 7), so no constant stands for them here. No result of the block is an
undefined value, so there is no free value either. -/

namespace Sys2Proof.Config

/-- Header width in bytes (R9: 32 bits = 4 bytes). -/
abbrev headerBytes : Nat := 4

/-- Header width in bits (R9). -/
abbrev headerBits : Nat := 32

/-- Lengths from here on do not fit the 32-bit header (R158). -/
abbrev lengthLimit : Nat := 4294967296

/-- `~1` at the channel width (R12): the bits of a channel that are never changed. -/
abbrev keepMask : Byte := 0xFE#8

/-- The largest `n` a BITS2I admits (R90). -/
abbrev maxBits : Nat := 32

/-- What a cell that a memory does not list reads as. DESIGN CHOICE, log 4: it is a matter of
representation, since LOADIMG, LOADPAY and EXTRACT define every byte of the memory they make. -/
abbrev unlisted : Byte := 0x00#8

end Sys2Proof.Config
end

