-- ==== Sys2Proof/Machine/State.lean ====
section
/-! DEFINITION. The state of the block (`10_state.md` R20), the actions its host may take (R34), the
reasons a step can stop, and the state after power-up and reset (R37). Plain data throughout. -/

namespace Sys2Proof.Machine

/-- A memory: a list of (address, byte) cells in the canonical form `Memory.wf`. A cell that is not
listed reads as `Config.unlisted`. -/
abbrev Memory := List Host.Cell

/-- A byte sequence of `len` bytes (`00_scope.md` R13) held as memory cells: the payload memories IN and
OUT, which have a length of their own (`10_state.md` R31, R32). -/
structure ByteSeq where
  len : Nat
  cells : Memory
  deriving DecidableEq, Repr

/-- The extraction stream `STRM` (R26): `closed`, or open with `POS` bits already pulled. -/
inductive Stream where
  | closed
  | opened (pos : Nat)
  deriving DecidableEq, Repr

/-- `STATUS`, the outcome of the last command (R27). -/
inductive Status where
  /-- No command has completed since reset. -/
  | none
  | ok
  | payloadTooLarge
  | noHiddenData
  | truncated
  | streamExhausted
  | illegalOp
  deriving DecidableEq, Repr

/-- A value of `RES`, typed by the operation (R28). -/
inductive ResVal where
  /-- I2B: 4 bytes. -/
  | bytes4 (b : Bytes4)
  /-- B2I: a 32-bit unsigned number. -/
  | u32 (n : Word)
  /-- B2BITS: a bit sequence. -/
  | bits (l : List Bit)
  /-- PULL: the pulled bit (EXH = 0), or none at exhaustion (EXH = 1); see `exhFlag`. -/
  | pulled (bit : Option Bit)
  /-- BITS2I: an unsigned number below 2^n, n ≤ 32. -/
  | number (n : Word)
  /-- LSBR: one bit. -/
  | bit (b : Bit)
  /-- LSBW: one byte. -/
  | byte (v : Byte)
  /-- PIXR: a tuple of C bits. -/
  | lanes (g : List Bit)
  /-- EXTRACT: OLEN. -/
  | olen (n : Word)
  deriving DecidableEq, Repr

/-- One access to a memory (`20_memory.md` R58): whole pixels of PIX, single bytes of IN and OUT. -/
inductive Access where
  | pixRead (i : Nat)
  | pixWrite (i : Nat)
  | inRead (j : Nat)
  | outWrite (j : Nat)
  deriving DecidableEq, Repr

/-- What the host can read (`10_state.md` R34): PIX, OUT, STATUS, RES. -/
inductive ReadTarget where
  | pix (k : Nat)
  | out (j : Nat)
  | status
  | res
  deriving DecidableEq, Repr

/-- What the host may do between commands (`10_state.md` R34, R37; `30_encoding.md` R96). -/
inductive HostAction where
  /-- Issue a command. -/
  | command (cmd : Command)
  /-- `LOADIMG W H C pixels`: present an image. -/
  | loadImg (w h c : Nat) (pixels : List Byte)
  /-- `LOADPAY bytes`: present a payload. -/
  | loadPay (bytes : List Byte)
  /-- Write a single byte of PIX. -/
  | writePix (k : Nat) (v : Byte)
  /-- Read PIX, OUT, STATUS or RES. -/
  | read (what : ReadTarget)
  /-- Assert reset. -/
  | reset
  /-- The pseudo-operation `HDRENC L`. -/
  | hdrenc (l : Nat)
  /-- The pseudo-operation `HDRDEC`. -/
  | hdrdec
  /-- The pseudo-operation `RDBYTE`. -/
  | rdbyte
  deriving DecidableEq, Repr

/-- The complete state (`10_state.md` R20), and two fields of the model's own. Field `inp` is IN with
PLEN as its length; `out` is OUT with OLEN as its length. -/
@[ext]
structure State where
  /-- `W`, image width. -/
  w : Nat
  /-- `H`, image height. -/
  h : Nat
  /-- `C`, channel count. -/
  c : Nat
  /-- `PIX`, the pixel memory, by flattened channel index. -/
  pix : Memory
  /-- `IN` and `PLEN`. -/
  inp : ByteSeq
  /-- `OUT` and `OLEN`, or no value. -/
  out : Option ByteSeq
  /-- `STRM`. -/
  strm : Stream
  /-- `STATUS`. -/
  status : Status
  /-- `RES`, or no value. -/
  res : Option ResVal
  /-- `ACC`, or no value. -/
  acc : Option Word
  /-- `LEN`, or no value. -/
  len : Option Word
  /-- `HDR`, or no value. -/
  hdr : Option Bytes4
  /-- The model's own (log 2): the actions the host takes from here on, the next one first. -/
  pending : List HostAction
  /-- The model's own (log 5): the accesses of the command in progress or last completed, oldest
  first. -/
  accesses : List Access
  deriving DecidableEq, Repr

/-- What the host can read that can hold "no value" (`10_state.md` R21, R34;
`93_implementation_defined.md` U10). -/
inductive Reg where
  | res
  | out
  deriving DecidableEq, Repr

/-- Why the model stops. Every one is safe: the model stops where the spec gives no value. -/
inductive Fault where
  /-- The host read RES or OUT while it holds "no value" (R21: "a model should make such a read a fault,
  never a zero"; U10: "**fault** in the model"). Raised by host reads only; no command raises it, since a
  command writes ACC, LEN and HDR before it reads them (R22, log 9). Safe. -/
  | noValue (r : Reg)
  /-- A pixel that does not exist was addressed (i ≥ NPIX, `20_memory.md` R57), or a tuple that is not of
  C channels was written. Raised by `pixRead` and `pixWrite`; no command raises it (log 9). Safe. -/
  | pixel (i : Nat)
  /-- A channel index k ≥ CAP was addressed. Raised by a host read or write of a byte of PIX, and by
  `memRead`, where no command raises it (log 9). Safe. -/
  | channel (k : Nat)
  /-- A byte of IN at or beyond PLEN was addressed. Raised by `inRead`; no command raises it (log 9).
  Safe. -/
  | payload (j : Nat)
  /-- A byte of OUT at or beyond OLEN was read (`93_implementation_defined.md` U22). Raised by a host
  read. Safe. -/
  | output (j : Nat)
  deriving DecidableEq, Repr

/-- What the model gives no meaning. -/
inductive Refusal where
  /-- An instruction whose meaning is not written yet; raised by arms of `exec` only. Safe. -/
  | notModelled (mnemonic : String)
  /-- A LOADIMG whose pixels are not W×H×C bytes: `93_implementation_defined.md` U12, "outside the
  model". Raised by `loadImg`. Safe (log 8). -/
  | imageGeometry
  deriving DecidableEq, Repr

/-- The state after power-up and reset (`10_state.md` R37). W, H, C, PIX, IN and PLEN are "unspecified at
power-up": here no image (0×0×0) and no payload, DESIGN CHOICE, log 3. -/
def State.reset : State :=
  { w := 0, h := 0, c := 0, pix := [], inp := ⟨0, []⟩, out := none, strm := .closed,
    status := .none, res := none, acc := none, len := none, hdr := none,
    pending := [], accesses := [] }

end Sys2Proof.Machine
end

