-- ==== Sys2Proof/Machine/Flags.lean ====
section
/-! DEFINITION. The block's flags: there are no arithmetic flags (`10_state.md` R27); what it has is the
outcome in STATUS, with its numeric codes (`60_exceptions.md` R196), and the exhaustion signal EXH of a
PULL (R28). -/

namespace Sys2Proof.Machine

/-- The numeric code of a STATUS (R196); code 6 is unused. -/
def statusCode : Status → Nat
  | .ok => 0
  | .payloadTooLarge => 1
  | .noHiddenData => 2
  | .truncated => 3
  | .streamExhausted => 4
  | .illegalOp => 5
  | .none => 7

/-- The exhaustion signal of a PULL's result (R28): EXH = 0 with a bit, EXH = 1 with no bit. -/
def exhFlag : Option Bit → Bit
  | some _ => 0
  | none => 1

end Sys2Proof.Machine
end

