-- ==== Sys2Proof/Machine/Memory.lean ====
section
/-! DEFINITION. The one form of the three memories (`10_state.md` R30 to R33): reading and writing a byte,
writing a run of bytes, making a memory from bytes, and the canonical form. -/

namespace Sys2Proof.Machine

/-- The canonical form: addresses strictly rising, no cell that reads as an unlisted one does. -/
abbrev Memory.wf (m : Memory) : Prop :=
  m.Pairwise (fun x y => x.1 < y.1) ∧ ∀ x ∈ m, x.2 ≠ Config.unlisted

/-- Every listed address is below `n`: the memory has no cell outside its `n` bytes. -/
abbrev Memory.below (n : Nat) (m : Memory) : Prop := ∀ x ∈ m, x.1 < n

/-- The byte at an address. -/
def Memory.read : Memory → Nat → Byte
  | [], _ => Config.unlisted
  | (k, v) :: m, a => if k = a then v else Memory.read m a

/-- Put a byte at the front of a canonical memory whose addresses are all larger. -/
def Memory.cons (a : Nat) (v : Byte) (m : Memory) : Memory :=
  if v = Config.unlisted then m else (a, v) :: m

/-- Write a byte at an address, keeping the canonical form. -/
def Memory.write : Memory → Nat → Byte → Memory
  | [], a, v => Memory.cons a v []
  | (k, x) :: m, a, v =>
    if a < k then Memory.cons a v ((k, x) :: m)
    else if a = k then Memory.cons a v m
    else (k, x) :: Memory.write m a v

/-- Write consecutive bytes, the first at address `a`. -/
def Memory.writeRun : Memory → Nat → List Byte → Memory
  | m, _, [] => m
  | m, a, v :: vs => Memory.writeRun (m.write a v) (a + 1) vs

/-- The memory that holds consecutive bytes from address `a` on and nothing else. -/
def Memory.ofBytes : Nat → List Byte → Memory
  | _, [] => []
  | a, v :: vs => Memory.cons a v (Memory.ofBytes (a + 1) vs)

/-- The byte sequence of a list of bytes. -/
def ByteSeq.ofList (l : List Byte) : ByteSeq := ⟨l.length, Memory.ofBytes 0 l⟩

/-- The bytes of a byte sequence, index 0 first (`00_scope.md` R13). -/
def ByteSeq.toList (b : ByteSeq) : List Byte := (List.range b.len).map b.cells.read

/-- A byte sequence in canonical form: its cells are, and none lies at or beyond its length. -/
abbrev ByteSeq.wf (b : ByteSeq) : Prop := b.cells.wf ∧ b.cells.below b.len

end Sys2Proof.Machine
end

