-- ==== Sys2Proof/WellFormed.lean ====
section
/-! DEFINITION. Well-formedness of an operation as syntax: the part of operand legality
(`30_encoding.md` R90) that does not depend on the state. The rest of R90 (stream open, pixel index
below NPIX, group of C lanes) is `Machine.admitted`. -/

namespace Sys2Proof

/-- R90's condition on the operands alone: "n ≤ 32 (n = 33..63 not admitted)" for BITS2I; every other
operand is in range by its type. -/
def Instr.wellFormed : Instr → Bool
  | .bits2i n => decide (n.toNat ≤ Config.maxBits)
  | .b2bits _ => true
  | .sopen => true
  | .pull => true
  | .i2b _ => true
  | .b2i _ => true
  | .lsbr _ => true
  | .lsbw _ _ => true
  | .pixr _ => true
  | .pixw _ _ => true
  | .embed => true
  | .extract => true

end Sys2Proof
end

