-- ==== Sys2Proof/Machine/Operands.lean ====
section
/-! DEFINITION. Operand forms: the derived quantities (`00_scope.md` R15), bit and byte assembly
(`30_encoding.md` R85, `20_memory.md` R50, R51), the LSB functions (R141, R143), grouping (R145), and
admission (`30_encoding.md` R90). All capacity arithmetic is exact, on natural numbers (R11). -/

namespace Sys2Proof.Machine

/-- `NPIX = W × H` (R15). -/
def State.npix (s : State) : Nat := s.w * s.h

/-- `CAP = W × H × C` (R15). -/
def State.cap (s : State) : Nat := s.w * s.h * s.c

/-- `PLEN`, by definition the length of IN (R31). -/
def State.plen (s : State) : Nat := s.inp.len

/-- `ceil(a / b)` for b > 0 (R12). -/
def divCeil (a b : Nat) : Nat := (a + b - 1) / b

/-- `REQ(L) = (4 + L) × 8` (R15). -/
def required (l : Nat) : Nat := (4 + l) * 8

/-- `G(L) = ceil(REQ(L) / C)`, for C ≥ 1 (R15). -/
def touchedPixels (l c : Nat) : Nat := divCeil (required l) c

/-- The flattened index of channel 0 of pixel i: `k = i×C + c` with c = 0 (R30, R56). -/
def State.pixelBase (s : State) (i : Nat) : Nat := i * s.c

/-- The C channel values of pixel i (R14 `PixRead`). -/
def State.pixel (s : State) (i : Nat) : List Byte :=
  (List.range s.c).map fun lane => s.pix.read (s.pixelBase i + lane)

/-- Bit-select: `channel_value & 1` (R141). -/
def lsb (v : Byte) : Bit := (v &&& 1#8).setWidth 1

/-- LSB-replace: `(old_channel_value & ~1) | bit` (R143). -/
def lsbReplace (v : Byte) (b : Bit) : Byte := (v &&& Config.keepMask) ||| b.setWidth 8

/-- The 8 bits of a byte, bit 7 first: bit t of the 8 is bit 7−t of the byte (R51). -/
def byteBits (v : Byte) : List Bit := (List.range 8).map fun t => v.extractLsb' (7 - t) 1

/-- `BytesToBits` (R111). -/
def bytesToBits (bytes : List Byte) : List Bit := bytes.flatMap byteBits

/-- One step of the accumulator: `acc = (acc << 1) | bit` (R85 b). -/
def shiftIn (acc : Word) (b : Bit) : Word := (acc <<< 1) ||| b.setWidth 32

/-- The number of a bit sequence in arrival order (R85 b). -/
def bitsToInt (l : List Bit) : Word := l.foldl shiftIn 0

/-- `IntToBytes`: most significant byte first (R50, R131). -/
def intToBytes (n : Word) : Bytes4 :=
  ⟨((n >>> 24) &&& 0xFF#32).setWidth 8, ((n >>> 16) &&& 0xFF#32).setWidth 8,
    ((n >>> 8) &&& 0xFF#32).setWidth 8, (n &&& 0xFF#32).setWidth 8⟩

/-- `BytesToInt`, the exact inverse (R133). -/
def bytesToInt (b : Bytes4) : Word :=
  (b.b0.setWidth 32 <<< 24) ||| (b.b1.setWidth 32 <<< 16) ||| (b.b2.setWidth 32 <<< 8) |||
    b.b3.setWidth 32

/-- The frame of a payload as bits: `BytesToBits(IntToBytes(L) ++ P)` (R80). -/
def frameBits (hdr : Bytes4) (payload : List Byte) : List Bit := bytesToBits (hdr.toList ++ payload)

/-- The first `n` consecutive pieces of length `c` of a list. -/
def pieces : Nat → Nat → List Bit → List (List Bit)
  | 0, _, _ => []
  | n + 1, c, l => l.take c :: pieces n c (l.drop c)

/-- `B'` of R145: a bit sequence followed by zero bits up to the next multiple of `c`. -/
def padded (c : Nat) (l : List Bit) : List Bit :=
  l ++ List.replicate (divCeil l.length c * c - l.length) 0

/-- `Group(B, C)` of R145, for C ≥ 1. -/
def group (c : Nat) (l : List Bit) : List (List Bit) := pieces (divCeil l.length c) c (padded c l)

/-- Admission of an operation in a state: the conditions of `30_encoding.md` R90. -/
def admitted (i : Instr) (s : State) : Bool :=
  i.wellFormed &&
  match i with
  | .pull | .bits2i _ => s.strm != .closed
  | .pixr i => decide (i < s.npix)
  | .pixw i g => decide (i < s.npix) && decide (g.length = s.c)
  | .b2bits _ | .sopen | .i2b _ | .b2i _ | .lsbr _ | .lsbw _ _ | .embed | .extract => true

end Sys2Proof.Machine
end

