-- ==== Sys2Proof/Machine/Ops.lean ====
section
/-! DEFINITION. The named operations over registers and memories that the meanings share: register
updates, how a command ends (success, `raise`, refusal), the access primitives of `00_scope.md` R14, and
the micro-steps BITS2I and PIXW that the sequencers use. -/

namespace Sys2Proof.Machine

/-- What a machine step answers. -/
abbrev Result := Host.Outcome State Fault Refusal

/-! ### Register updates -/

def State.setPix (m : Memory) (s : State) : State := { s with pix := m }
def State.setOut (o : Option ByteSeq) (s : State) : State := { s with out := o }
def State.setStrm (x : Stream) (s : State) : State := { s with strm := x }
def State.setAcc (a : Option Word) (s : State) : State := { s with acc := a }
def State.setLen (l : Option Word) (s : State) : State := { s with len := l }
def State.setHdr (b : Option Bytes4) (s : State) : State := { s with hdr := b }

/-- Record one access. -/
def State.logAccess (a : Access) (s : State) : State := { s with accesses := s.accesses ++ [a] }

/-! ### How a command ends -/

/-- `return v`: STATUS OK and the result in RES (R14); ACC, LEN, HDR hold no value again (R22, R110). -/
def State.finish (v : Option ResVal) (s : State) : State :=
  { s with status := .ok, res := v, acc := none, len := none, hdr := none }

/-- `raise <Kind>` (`60_exceptions.md` R204): STATUS the kind; RES, ACC, LEN, HDR no value. This is the
block's one way of taking a failure: nothing is saved, no mode changes, control goes nowhere (R202). There
is no operation that returns from it (R205): the next command simply runs. -/
def State.raise (k : Status) (s : State) : State :=
  { s with status := k, res := none, acc := none, len := none, hdr := none }

/-- `raise` inside EXTRACT (R204): also OUT no value and STRM closed. -/
def State.raiseExtract (k : Status) (s : State) : State :=
  ((s.setOut none).setStrm .closed).raise k

/-- `refuse` (`30_encoding.md` R92): STATUS IllegalOp, RES no value, nothing else changes
(ACC, LEN and HDR hold no value already, DEDUCED, log 15). -/
def State.refuse (s : State) : State := { s with status := .illegalOp, res := none }

/-- Run an operation where it is admitted, refuse it where it is not (R90, R92, R110). -/
def whenAdmitted (i : Instr) (s : State) (body : Result) : Result :=
  if admitted i s then body else .next s.refuse

/-! ### Access primitives (R14) -/

/-- `PixRead(i)` (R14): the C-tuple of pixel i. -/
def pixRead (i : Nat) (s : State) : Except Fault (List Byte × State) :=
  if i < s.npix then .ok (s.pixel i, s.logAccess (.pixRead i)) else .error (.pixel i)

/-- `PixWrite(i, t)` (R14): write the C-tuple t to pixel i. -/
def pixWrite (i : Nat) (t : List Byte) (s : State) : Except Fault State :=
  if i < s.npix ∧ t.length = s.c then
    .ok ((s.setPix (s.pix.writeRun (s.pixelBase i) t)).logAccess (.pixWrite i))
  else .error (.pixel i)

/-- `MemRead(k, 1)`: `PixRead(k div C)[k mod C]` (R14, `20_memory.md` R56). -/
def memRead (k : Nat) (s : State) : Except Fault (Byte × State) :=
  match pixRead (k / s.c) s with
  | .error f => .error f
  | .ok (p, s') =>
    match p[k % s.c]? with
    | some v => .ok (v, s')
    | none => .error (.channel k)

/-- `InRead(j)` (R14): byte j of IN, 0 ≤ j < PLEN. -/
def inRead (j : Nat) (s : State) : Except Fault (Byte × State) :=
  if j < s.plen then .ok (s.inp.cells.read j, s.logAccess (.inRead j)) else .error (.payload j)

/-- `[InRead(j), ..., InRead(j + n − 1)]`, in ascending order (R157 E3, R160). -/
def inReadRun : Nat → Nat → State → Except Fault (List Byte × State)
  | 0, _, s => .ok ([], s)
  | n + 1, j, s =>
    match inRead j s with
    | .error f => .error f
    | .ok (v, s1) =>
      match inReadRun n (j + 1) s1 with
      | .error f => .error f
      | .ok (vs, s2) => .ok (v :: vs, s2)

/-- The byte sequence with byte `j` written, as long as that takes. -/
def ByteSeq.put (j : Nat) (v : Byte) (b : ByteSeq) : ByteSeq :=
  ⟨max b.len (j + 1), b.cells.write j v⟩

/-- `OutWrite(j, b)` (R14): write byte b at index j of OUT. -/
def outWrite (j : Nat) (v : Byte) (s : State) : State :=
  (s.setOut (some ((s.out.getD ⟨0, []⟩).put j v))).logAccess (.outWrite j)

/-! ### Micro-steps

A command writes ACC, LEN and HDR before it reads them (`10_state.md` R22), so a micro-step that writes one
hands on the value it wrote, and the later steps of the command read that value. The laws `bits2iMicro_ok`,
`extractHeader_ok`, `embedCheckLength_len` and `embedHeader_hdr` say that it is what the register holds. -/

/-- How a micro-step of a command ends: it goes on with a value, it raises a failure kind, or the model
faults. -/
inductive Micro (α : Type) where
  | done (a : α) (s : State)
  | stop (k : Status) (s : State)
  | fault (f : Fault)
  deriving DecidableEq, Repr

/-- Go on with the next micro-step where this one goes on. -/
def Micro.andThen {α β : Type} (m : Micro α) (k : α → State → Micro β) : Micro β :=
  match m with
  | .done a s => k a s
  | .stop e s => .stop e s
  | .fault f => .fault f

/-- The loop of BITS2I (R117): `n` channel reads at ascending positions from `pos`, each bit shifted into
ACC, which holds `a`: `ACC <- (ACC << 1) | bit`. -/
def accLoop : Nat → Nat → Word → State → Micro Word
  | 0, _, a, s => .done a s
  | n + 1, pos, a, s =>
    match memRead pos s with
    | .error f => .fault f
    | .ok (v, s1) =>
      accLoop n (pos + 1) (shiftIn a (lsb v)) (s1.setAcc (some (shiftIn a (lsb v))))

/-- BITS2I as a micro-step on the stream open at `pos` (R117, R118, R177): on success the number is in ACC
and POS has advanced by n; with fewer than n bits left the stream is left exhausted. It writes neither
STATUS nor RES. A POS beyond CAP, which no run reaches, leaves 0 bits (DESIGN CHOICE, log 14). -/
def bits2iMicro (n pos : Nat) (s : State) : Micro Word :=
  if s.cap - pos < n then .stop .streamExhausted (s.setStrm (.opened s.cap))
  else (accLoop n pos 0 (s.setAcc (some 0))).andThen fun a s1 =>
    .done a (s1.setStrm (.opened (pos + n)))

/-- PIXW as a micro-step (R148): read pixel i, replace every lane's LSB, write pixel i. -/
def pixwMicro (i : Nat) (g : List Bit) (s : State) : Micro Unit :=
  match pixRead i s with
  | .error f => .fault f
  | .ok (p, s1) =>
    match pixWrite i (List.zipWith lsbReplace p g) s1 with
    | .error f => .fault f
    | .ok s2 => .done () s2

/-- Step E5 of EMBED (R157, R161): one PIXW for each group, to consecutive pixels from `i`. -/
def pixwRun : List (List Bit) → Nat → State → Micro Unit
  | [], _, s => .done () s
  | g :: gs, i, s => (pixwMicro i g s).andThen fun _ s1 => pixwRun gs (i + 1) s1

end Sys2Proof.Machine
end

