-- ==== Sys2Proof/Machine/BitPacker.lean ====
section
/-! DEFINITION. The bit packer (`40_bit_packer.md`): B2BITS, SOPEN, PULL, BITS2I. -/

namespace Sys2Proof.Machine

/-- `B2BITS bytes` (R111). -/
def execB2bits (bytes : List Byte) (s : State) : Result :=
  whenAdmitted (.b2bits bytes) s (.next (s.finish (some (.bits (bytesToBits bytes)))))

/-- `SOPEN` (R113): a fresh stream at position 0; an open one is replaced. -/
def execSopen (s : State) : Result :=
  whenAdmitted .sopen s (.next ((s.setStrm (.opened 0)).finish none))

/-- `PULL` (R115): exhaustion is a result, not a failure. A POS beyond CAP, which no run
reaches, is exhausted (DESIGN CHOICE, log 14). -/
def execPull (s : State) : Result :=
  whenAdmitted .pull s <|
    match s.strm with
    | .closed => .next s.refuse
    | .opened pos =>
      if pos < s.cap then
        match memRead pos s with
        | .error f => .fault f
        | .ok (v, s1) =>
          .next ((s1.setStrm (.opened (pos + 1))).finish (some (.pulled (some (lsb v)))))
      else .next (s.finish (some (.pulled none)))

/-- `BITS2I n` (R117, R118); on a closed stream it is refused, as PULL is (R90, R92). -/
def execBits2i (n : BitVec 6) (s : State) : Result :=
  whenAdmitted (.bits2i n) s <|
    match s.strm with
    | .closed => .next s.refuse
    | .opened pos =>
      match bits2iMicro n.toNat pos s with
      | .fault f => .fault f
      | .stop k s1 => .next (s1.raise k)
      | .done a s1 => .next (s1.finish (some (.number a)))

end Sys2Proof.Machine
end

