-- ==== Sys2Proof/Machine/Embed.lean ====
section
/-! DEFINITION. The EMBED sequencer (`43_embed.md`), step by step as R157 lists them. -/

namespace Sys2Proof.Machine

/-- Step E1 (R158): the length range check, then `LEN <- PLEN`; the value is LEN's. -/
def embedCheckLength (s : State) : Micro Word :=
  if Config.lengthLimit ≤ s.plen then .stop .payloadTooLarge s
  else .done (BitVec.ofNat 32 s.plen) (s.setLen (some (BitVec.ofNat 32 s.plen)))

/-- Step E2 (R159): the capacity check, strict, on LEN = `l`. -/
def embedCheckCapacity (l : Word) (s : State) : Micro Unit :=
  if s.cap < required l.toNat then .stop .payloadTooLarge s else .done () s

/-- First half of step E3 (R157): `HDR <- I2B(LEN)`; the value is HDR's. -/
def embedHeader (l : Word) (s : State) : Micro Bytes4 :=
  .done (intToBytes l) (s.setHdr (some (intToBytes l)))

/-- Rest of E3, E4 and E5 (R160, R161): read the payload, form the frame from HDR and it, group it, write
the groups. -/
def embedWrite (l : Word) (hdr : Bytes4) (s : State) : Micro Unit :=
  match inReadRun l.toNat 0 s with
  | .error f => .fault f
  | .ok (payload, s1) => pixwRun (group s.c (frameBits hdr payload)) 0 s1

/-- Steps E1 to E5 in order (R157). -/
def embedSteps (s : State) : Micro Unit :=
  (embedCheckLength s).andThen fun l s1 =>
    (embedCheckCapacity l s1).andThen fun _ s2 =>
      (embedHeader l s2).andThen fun hdr s3 => embedWrite l hdr s3

/-- `EMBED` (R157); E6 ends it. -/
def execEmbed (s : State) : Result :=
  whenAdmitted .embed s <|
    match embedSteps s with
    | .fault f => .fault f
    | .stop k s1 => .next (s1.raise k)
    | .done _ s1 => .next (s1.finish none)

end Sys2Proof.Machine
end

