-- ==== Sys2Proof/Machine/Extract.lean ====
section
/-! DEFINITION. The EXTRACT sequencer (`44_extract.md`), step by step as R177 lists them. -/

namespace Sys2Proof.Machine

/-- BITS2I inside EXTRACT, the stream open at `pos`: `StreamExhausted` is reported as `Truncated`
(`60_exceptions.md` R199). -/
def extractBits (n pos : Nat) (s : State) : Micro Word :=
  match bits2iMicro n pos s with
  | .done a s1 => .done a s1
  | .stop _ s1 => .stop .truncated s1
  | .fault f => .fault f

/-- Step X2 (R179): `LEN <- BITS2I 32`, on the stream X1 has opened at 0; the value is LEN's. -/
def extractHeader (s : State) : Micro Word :=
  (extractBits Config.headerBits 0 s).andThen fun a s1 => .done a (s1.setLen (some a))

/-- Step X3 (R180): the capacity test, strict, on LEN = `l`. -/
def extractCheckCapacity (l : Word) (s : State) : Micro Unit :=
  if s.cap < 32 + l.toNat * 8 then .stop .noHiddenData s else .done () s

/-- The loop of X4 (R181): `n` payload bytes, the first from stream position `pos` to index `j` of OUT. -/
def extractLoop : Nat → Nat → Nat → State → Micro Unit
  | 0, _, _, s => .done () s
  | n + 1, j, pos, s =>
    (extractBits 8 pos s).andThen fun a s1 =>
      extractLoop n (j + 1) (pos + 8) (outWrite j (a.setWidth 8) s1)

/-- Step X4 (R181): OUT starts as the empty sequence (DEDUCED, log 13) and receives LEN bytes, from the
stream position after the header. -/
def extractPayload (l : Word) (s : State) : Micro Unit :=
  extractLoop l.toNat 0 Config.headerBits (s.setOut (some ⟨0, []⟩))

/-- Steps X1 to X4 in order (R177); X1 opens a fresh stream (R176). The value is LEN's. -/
def extractSteps (s : State) : Micro Word :=
  (extractHeader (s.setStrm (.opened 0))).andThen fun l s1 =>
    (extractCheckCapacity l s1).andThen fun _ s2 =>
      (extractPayload l s2).andThen fun _ s3 => .done l s3

/-- `EXTRACT` (R177); every way out closes the stream (R176, R183). -/
def execExtract (s : State) : Result :=
  whenAdmitted .extract s <|
    match extractSteps s with
    | .fault f => .fault f
    | .stop k s1 => .next (s1.raiseExtract k)
    | .done l s1 => .next ((s1.setStrm .closed).finish (some (.olen l)))

end Sys2Proof.Machine
end

