-- ==== Sys2Proof/Machine/HeaderCodec.lean ====
section
/-! DEFINITION. The payload length header codec (`41_header_codec.md`): I2B, B2I. -/

namespace Sys2Proof.Machine

/-- `I2B n` (R131). -/
def execI2b (n : Word) (s : State) : Result :=
  whenAdmitted (.i2b n) s (.next (s.finish (some (.bytes4 (intToBytes n)))))

/-- `B2I b` (R133). -/
def execB2i (b : Bytes4) (s : State) : Result :=
  whenAdmitted (.b2i b) s (.next (s.finish (some (.u32 (bytesToInt b)))))

end Sys2Proof.Machine
end

