-- ==== Sys2Proof/Machine/LsbEmbedder.lean ====
section
/-! DEFINITION. The LSB embedder (`42_lsb_embedder.md`): LSBR, LSBW, PIXR, PIXW. -/

namespace Sys2Proof.Machine

/-- `LSBR v` (R141). -/
def execLsbr (v : Byte) (s : State) : Result :=
  whenAdmitted (.lsbr v) s (.next (s.finish (some (.bit (lsb v)))))

/-- `LSBW v, b` (R143). -/
def execLsbw (v : Byte) (b : Bit) (s : State) : Result :=
  whenAdmitted (.lsbw v b) s (.next (s.finish (some (.byte (lsbReplace v b)))))

/-- `PIXR i` (R147). -/
def execPixr (i : Nat) (s : State) : Result :=
  whenAdmitted (.pixr i) s <|
    match pixRead i s with
    | .error f => .fault f
    | .ok (p, s1) => .next (s1.finish (some (.lanes (p.map lsb))))

/-- `PIXW i, g` (R148). -/
def execPixw (i : Nat) (g : List Bit) (s : State) : Result :=
  whenAdmitted (.pixw i g) s <|
    match pixwMicro i g s with
    | .fault f => .fault f
    | .stop k s1 => .next (s1.raise k)
    | .done _ s1 => .next (s1.finish none)

end Sys2Proof.Machine
end

