-- ==== Sys2Proof/Machine/Dispatch.lean ====
section
/-! DEFINITION. One arm for each operation of `30_encoding.md` R88. -/

namespace Sys2Proof.Machine

def exec (i : Instr) (s : State) : Host.Outcome State Fault Refusal :=
  match i with
  | .b2bits bytes => Sys2Proof.Machine.execB2bits bytes s
  | .sopen => Sys2Proof.Machine.execSopen s
  | .pull => Sys2Proof.Machine.execPull s
  | .bits2i n => Sys2Proof.Machine.execBits2i n s
  | .i2b n => Sys2Proof.Machine.execI2b n s
  | .b2i b => Sys2Proof.Machine.execB2i b s
  | .lsbr v => Sys2Proof.Machine.execLsbr v s
  | .lsbw v b => Sys2Proof.Machine.execLsbw v b s
  | .pixr k => Sys2Proof.Machine.execPixr k s
  | .pixw k g => Sys2Proof.Machine.execPixw k g s
  | .embed => Sys2Proof.Machine.execEmbed s
  | .extract => Sys2Proof.Machine.execExtract s

end Sys2Proof.Machine
end

