-- ==== Sys2Proof/Machine/HostActions.lean ====
section
/-! DEFINITION. What each action of the host does (`10_state.md` R34, R37; `30_encoding.md` R92, R96):
issuing a command, presenting an image or a payload, writing a byte of PIX, reading, reset, and the
pseudo-operations. -/

namespace Sys2Proof.Machine

/-- A command begins: its access list is empty. -/
def State.beginCommand (s : State) : State := { s with accesses := [] }

/-- A command is issued: a reserved word is refused (R91, R92), any other word runs its operation. -/
def runCommand (cmd : Command) (s : State) : Result :=
  match decode cmd with
  | .error _ => .next s.beginCommand.refuse
  | .ok i => exec i s.beginCommand

/-- `LOADIMG W H C pixels` (R34): the geometry, PIX, and `STRM <- closed`. Pixels that are not W×H×C bytes
are outside the model (`93_implementation_defined.md` U12, log 8). -/
def loadImg (w h c : Nat) (pixels : List Byte) (s : State) : Result :=
  if pixels.length = w * h * c then
    .next { s with w := w, h := h, c := c, pix := Memory.ofBytes 0 pixels, strm := .closed }
  else .refused .imageGeometry

/-- `LOADPAY bytes` (R34): `IN <- bytes`, `PLEN <- len(bytes)`. -/
def loadPay (bytes : List Byte) (s : State) : State := { s with inp := ByteSeq.ofList bytes }

/-- The host writes one byte of PIX (R34): an open stream stays open. -/
def hostWritePix (k : Nat) (v : Byte) (s : State) : Result :=
  if k < s.cap then .next (s.setPix (s.pix.write k v)) else .fault (.channel k)

/-- The byte the host reads from PIX. -/
def hostReadPix (k : Nat) (s : State) : Except Fault Byte :=
  if k < s.cap then .ok (s.pix.read k) else .error (.channel k)

/-- The byte the host reads from OUT; beyond OLEN and where OUT holds no value there is none (U10, U22). -/
def hostReadOut (j : Nat) (s : State) : Except Fault Byte :=
  match s.out with
  | none => .error (.noValue .out)
  | some o => if j < o.len then .ok (o.cells.read j) else .error (.output j)

/-- The value the host reads from RES; where RES holds no value there is none (R21, U10). -/
def hostReadRes (s : State) : Except Fault ResVal :=
  match s.res with
  | none => .error (.noValue .res)
  | some v => .ok v

/-- The code the host reads from STATUS (`60_exceptions.md` R196). -/
def hostReadStatus (s : State) : Nat := statusCode s.status

/-- A host read has no effect on the state (R34); it faults where there is no value to read
(DEDUCED, log 10). -/
def hostRead (what : ReadTarget) (s : State) : Result :=
  match what with
  | .pix k => match hostReadPix k s with
    | .ok _ => .next s
    | .error f => .fault f
  | .out j => match hostReadOut j s with
    | .ok _ => .next s
    | .error f => .fault f
  | .res => match hostReadRes s with
    | .ok _ => .next s
    | .error f => .fault f
  | .status => .next s

/-- The reset event (R37): the block's registers; W, H, C, PIX, IN, PLEN are unchanged. -/
def resetEvent (s : State) : State :=
  { s with status := .none, res := none, strm := .closed, out := none, acc := none, len := none,
           hdr := none }

/-- `HDRENC L` (R96, R135): `I2B L`, after checking L < 2^32. A failed check ends like a command
that raises (DEDUCED, log 11). -/
def pseudoHdrenc (l : Nat) (s : State) : Result :=
  if Config.lengthLimit ≤ l then .next (s.beginCommand.raise .payloadTooLarge)
  else runCommand (encode (.i2b (BitVec.ofNat 32 l))) s

/-- `HDRDEC` (R96, R136): `BITS2I 32`. -/
def pseudoHdrdec (s : State) : Result := runCommand (encode (.bits2i 32)) s

/-- `RDBYTE` (R96): `BITS2I 8`. -/
def pseudoRdbyte (s : State) : Result := runCommand (encode (.bits2i 8)) s

/-- Perform one action of the host. -/
def perform (a : HostAction) (s : State) : Result :=
  match a with
  | .command cmd => runCommand cmd s
  | .loadImg w h c pixels => loadImg w h c pixels s
  | .loadPay bytes => .next (loadPay bytes s)
  | .writePix k v => hostWritePix k v s
  | .read what => hostRead what s
  | .reset => .next (resetEvent s)
  | .hdrenc l => pseudoHdrenc l s
  | .hdrdec => pseudoHdrdec s
  | .rdbyte => pseudoRdbyte s

end Sys2Proof.Machine
end

