-- ==== Sys2Proof/Machine/Step.lean ====
section
/-! DEFINITION. One step: the host takes its next action, and the block carries it out to completion
(`20_memory.md` R65, `70_reset_and_hazards.md` R231). With nothing pending the block stays as it is: it
does nothing of its own (log 2). -/

namespace Sys2Proof.Machine

/-- The state without the action that is being taken. -/
def State.pop (rest : List HostAction) (s : State) : State := { s with pending := rest }

/-- One step of the machine. -/
def step (s : State) : Host.Outcome State Fault Refusal :=
  match s.pending with
  | [] => .next s
  | a :: rest => perform a (s.pop rest)

/-- The state with the command of an operation-table word as the host's next action, its operand record
zero: the block fetches nothing, so this is where the next instruction comes from (R23, log 2, log 6). -/
def State.withFetchWord (s : State) (_nbits w : Nat) : State :=
  { s with pending := .command (tableCommand w) :: s.pending }

end Sys2Proof.Machine
end

