-- ==== Sys2Proof/Safety.lean ====
section
/-! DEFINITION. What counts as a safe run, in the terms claims use: the invariant of the state, and the
state's parts that a claim says are unchanged. -/

namespace Sys2Proof.Machine

/-- The invariant between commands. PIX is canonical with no cell outside CAP (R30); IN and OUT are
canonical byte sequences (R31, R32), OUT of length below 2^32 (R20); an open stream's POS is at most CAP
(R20, R116); ACC, LEN and HDR hold no value (R22); RES holds a value only when STATUS is OK (R28). -/
abbrev State.inv (s : State) : Prop :=
  (s.pix.wf ∧ s.pix.below s.cap) ∧
  s.inp.wf ∧
  (∀ o, s.out = some o → o.wf ∧ o.len < Config.lengthLimit) ∧
  (∀ pos, s.strm = .opened pos → pos ≤ s.cap) ∧
  (s.acc = none ∧ s.len = none ∧ s.hdr = none) ∧
  (s.status ≠ .ok → s.res = none)

/-- Where an operation is not admitted, spelled out row by row from `30_encoding.md` R90. -/
def State.inadmissible (i : Instr) (s : State) : Prop :=
  match i with
  | .bits2i n => 32 < n.toNat ∨ s.strm = .closed
  | .pull => s.strm = .closed
  | .pixr i => s.w * s.h ≤ i
  | .pixw i g => s.w * s.h ≤ i ∨ g.length ≠ s.c
  | .b2bits _ | .sopen | .i2b _ | .b2i _ | .lsbr _ | .lsbw _ _ | .embed | .extract => False

/-- The failure kinds an admitted operation can raise (`60_exceptions.md` R195, column "raised by"). -/
def mayRaise (i : Instr) (k : Status) : Prop :=
  match i with
  | .bits2i _ => k = .streamExhausted
  | .embed => k = .payloadTooLarge
  | .extract => k = .noHiddenData ∨ k = .truncated
  | .b2bits _ | .sopen | .pull | .i2b _ | .b2i _ | .lsbr _ | .lsbw _ _ | .pixr _ | .pixw _ _ => False

/-- The commands of a list, one after the other, each on the state the one before it leaves. -/
def runAll : List Instr → State → Result
  | [], s => .next s
  | i :: is, s =>
    match exec i s with
    | .next t => runAll is t
    | .fault f => .fault f
    | .refused r => .refused r

/-- Bit k of the stream over the image: `s[k] = PIX[k] & 1` (`40_bit_packer.md` R114). -/
def State.streamBit (s : State) (k : Nat) : Bit := lsb (s.pix.read k)

/-- The n stream bits from position pos on, in arrival order: `s[pos..pos+n)`. -/
def State.streamBits (s : State) (pos n : Nat) : List Bit := (List.range' pos n).map s.streamBit

/-- The pixel reads that deliver the n stream bits from position pos on: position k is a channel of pixel
`k div C` (`20_memory.md` R56). -/
def State.streamReads (s : State) (pos n : Nat) : List Access :=
  (List.range' pos n).map fun k => .pixRead (k / s.c)

/-- The byte the eight stream bits from position pos on spell (`44_extract.md` R181). -/
def State.streamByte (s : State) (pos : Nat) : Byte := (bitsToInt (s.streamBits pos 8)).setWidth 8

/-- The declared length: the number of the first 32 stream bits (`44_extract.md` R179). -/
def State.declaredLength (s : State) : Word := bitsToInt (s.streamBits 0 32)

end Sys2Proof.Machine
end

