-- ==== Sys2Proof/Certificates/Slice0/Obligations.lean ====
section
/-! DEFINITION. The statements about the machine, for the provers. Each formalises numbered rules of
`spec/`; OBLIGATIONS.json lists them with the rules they cite. A successful command's next state is written
out as a record update of the state before, so that a result, what else is written, and the frame stand in
one equation. `accesses` is the model's own list of memory accesses (log 5): where a statement leaves it
unchanged, the command makes no memory access. -/

open Sys2Proof Sys2Proof.Machine

/-! ### Encoding -/

/-- R91: which command words are reserved, and that they are 244 of the 256. -/
def Obligations.ReservedWordsAreExactlyTheRejectedOnes : Prop :=
  (∀ (cw : BitVec 8) (o : Operands),
    (∃ r, decode ⟨cw, o⟩ = .error r) ↔
      (cw.extractLsb' 4 4 ≠ 0x0#4 ∨ cw.extractLsb' 0 4 = 0x0#4 ∨ cw.extractLsb' 0 4 = 0xD#4 ∨
        cw.extractLsb' 0 4 = 0xE#4 ∨ cw.extractLsb' 0 4 = 0xF#4)) ∧
  ((List.range 256).countP fun w => (decode ⟨BitVec.ofNat 8 w, Operands.zero⟩).toOption.isNone) = 244

/-- R86 to R88: each of the twelve words, written out bit by bit, selects its operation with the operands its
row names. -/
def Obligations.TableWordsSelectTheirOperations : Prop :=
  ∀ o : Operands,
    decode ⟨0b00000001#8, o⟩ = .ok (.b2bits o.bytes) ∧ decode ⟨0b00000010#8, o⟩ = .ok .sopen ∧
    decode ⟨0b00000011#8, o⟩ = .ok .pull ∧ decode ⟨0b00000100#8, o⟩ = .ok (.bits2i o.n6) ∧
    decode ⟨0b00000101#8, o⟩ = .ok (.i2b o.n32) ∧ decode ⟨0b00000110#8, o⟩ = .ok (.b2i o.b4) ∧
    decode ⟨0b00000111#8, o⟩ = .ok (.lsbr o.v) ∧ decode ⟨0b00001000#8, o⟩ = .ok (.lsbw o.v o.b) ∧
    decode ⟨0b00001001#8, o⟩ = .ok (.pixr o.i) ∧ decode ⟨0b00001010#8, o⟩ = .ok (.pixw o.i o.g) ∧
    decode ⟨0b00001011#8, o⟩ = .ok .embed ∧ decode ⟨0b00001100#8, o⟩ = .ok .extract

/-- R86 to R88: encoding loses no operand. -/
def Obligations.DecodeOfEncodeIsTheInstruction : Prop :=
  ∀ i : Instr, decode (encode i) = .ok i

/-- R88: one word for each operation: a command that decodes has the word its operation encodes to, and the
operation depends on the record only through the operands of its row. -/
def Obligations.DecodedCommandsHaveTheEncodedWord : Prop :=
  ∀ (cmd : Command) (i : Instr), decode cmd = .ok i →
    (encode i).cw = cmd.cw ∧ decode ⟨cmd.cw, (encode i).ops⟩ = .ok i

/-! ### Steps, admission and refusal -/

/-- A step on a command runs the decoded operation on the state with that command taken and its access list
begun; the queue of commands is the model's (log 2). -/
def Obligations.StepRunsTheDecodedCommand : Prop :=
  ∀ (s : State) (cmd : Command) (rest : List HostAction) (i : Instr),
    s.pending = .command cmd :: rest → decode cmd = .ok i →
    step s = exec i { s with pending := rest, accesses := [] }

/-- R92 with R90 and R91: a reserved word and an inadmissible operation are refused; STATUS and RES change
and nothing else, and no memory access is made. -/
def Obligations.RefusalChangesOnlyStatusAndResult : Prop :=
  (∀ (s : State) (cmd : Command) (rest : List HostAction),
    s.pending = .command cmd :: rest →
    ((∃ r, decode cmd = .error r) ∨ (∃ i, decode cmd = .ok i ∧ s.inadmissible i)) →
    step s = .next { s with pending := rest, accesses := [], status := .illegalOp, res := none }) ∧
  (∀ (i : Instr) (s : State), s.inadmissible i →
    exec i s = .next { s with status := .illegalOp, res := none })

/-- R110, R195, R205, R240: every operation ends in a next state, from every state, with the kinds of R195:
IllegalOp exactly where it is not admitted, and otherwise OK or a kind that operation raises, with RES
empty on any outcome but OK and ACC, LEN and HDR empty after an admitted one. -/
def Obligations.EveryOperationEndsWithItsOwnOutcomes : Prop :=
  ∀ (i : Instr) (s : State), ∃ t, exec i s = .next t ∧
    (t.status = .illegalOp ↔ s.inadmissible i) ∧
    (¬ s.inadmissible i → (t.status = .ok ∨ mayRaise i t.status) ∧
      t.acc = none ∧ t.len = none ∧ t.hdr = none) ∧
    (t.status ≠ .ok → t.res = none)

/-! ### Bit packer -/

/-- R111. -/
def Obligations.B2bitsProducesEachByteMostSignificantBitFirst : Prop :=
  (∀ o : Operands, decode ⟨0x01#8, o⟩ = .ok (.b2bits o.bytes)) ∧
  ∀ (bytes : List Byte) (s : State), ∃ out : List Bit,
    exec (.b2bits bytes) s = .next { s with
      status := .ok, res := some (.bits out), acc := none, len := none, hdr := none } ∧
    out.length = 8 * bytes.length ∧
    ∀ (j : Nat) (hj : j < bytes.length) (t : Nat), t ≤ 7 →
      out[8 * j + t]? = some (bytes[j].extractLsb' (7 - t) 1)

/-- R113. -/
def Obligations.SopenCreatesAFreshStream : Prop :=
  (∀ o : Operands, decode ⟨0x02#8, o⟩ = .ok .sopen) ∧
  ∀ s : State, exec .sopen s = .next { s with
    strm := .opened 0, status := .ok, res := none, acc := none, len := none, hdr := none }

/-- R115: the three cases of PULL, and the exhaustion signal of its result. -/
def Obligations.PullDeliversTheNextBitOrExhaustion : Prop :=
  (∀ o : Operands, decode ⟨0x03#8, o⟩ = .ok .pull) ∧
  (∀ s : State, s.strm = .closed →
    exec .pull s = .next { s with status := .illegalOp, res := none }) ∧
  (∀ (s : State) (pos : Nat), s.strm = .opened pos → pos < s.w * s.h * s.c →
    exec .pull s = .next { s with
      strm := .opened (pos + 1), status := .ok,
      res := some (.pulled (some ((s.pix.read pos).extractLsb' 0 1))),
      acc := none, len := none, hdr := none,
      accesses := s.accesses ++ [.pixRead (pos / s.c)] }) ∧
  (∀ (s : State) (pos : Nat), s.strm = .opened pos → pos = s.w * s.h * s.c →
    exec .pull s = .next { s with
      status := .ok, res := some (.pulled none), acc := none, len := none, hdr := none }) ∧
  (∀ b : Bit, exhFlag (some b) = 0#1) ∧ exhFlag none = 1#1

/-- R117 and R118: BITS2I where n bits remain, where fewer remain, and where it is not admitted. -/
def Obligations.Bits2iAssemblesExactlyNBits : Prop :=
  (∀ o : Operands, decode ⟨0x04#8, o⟩ = .ok (.bits2i o.n6)) ∧
  (∀ (n : BitVec 6) (s : State) (pos : Nat),
    n.toNat ≤ 32 → s.strm = .opened pos → pos + n.toNat ≤ s.w * s.h * s.c →
    ∃ v : Word, exec (.bits2i n) s = .next { s with
        strm := .opened (pos + n.toNat), status := .ok, res := some (.number v),
        acc := none, len := none, hdr := none,
        accesses := s.accesses ++ (List.range n.toNat).map fun t => .pixRead ((pos + t) / s.c) } ∧
      v.toNat = ∑ t ∈ Finset.range n.toNat,
        ((s.pix.read (pos + t)).extractLsb' 0 1).toNat * 2 ^ (n.toNat - 1 - t) ∧
      v.toNat < 2 ^ n.toNat) ∧
  (∀ (n : BitVec 6) (s : State) (pos : Nat),
    n.toNat ≤ 32 → s.strm = .opened pos → pos ≤ s.w * s.h * s.c →
    s.w * s.h * s.c - pos < n.toNat →
    exec (.bits2i n) s = .next { s with
      strm := .opened (s.w * s.h * s.c), status := .streamExhausted, res := none,
      acc := none, len := none, hdr := none }) ∧
  (∀ (n : BitVec 6) (s : State), 32 < n.toNat ∨ s.strm = .closed →
    exec (.bits2i n) s = .next { s with status := .illegalOp, res := none })

/-- R119 (a): splitting a read. -/
def Obligations.Bits2iSplits : Prop :=
  ∀ (a b ab : BitVec 6) (s : State) (pos : Nat),
    ab.toNat = a.toNat + b.toNat → ab.toNat ≤ 32 → s.strm = .opened pos →
    pos + ab.toNat ≤ s.w * s.h * s.c →
    ∃ (t u v : State) (x y z : Word),
      exec (.bits2i a) s = .next t ∧ t.res = some (.number x) ∧
      exec (.bits2i b) t = .next u ∧ u.res = some (.number y) ∧
      exec (.bits2i ab) s = .next v ∧ v.res = some (.number z) ∧
      u.strm = v.strm ∧ u.pix = v.pix ∧ u.accesses = v.accesses ∧
      z.toNat = x.toNat * 2 ^ b.toNat + y.toNat

/-- R119 (c): n PULLs that deliver bits and one BITS2I n take the same bits. -/
def Obligations.PullsEqualOneBits2i : Prop :=
  ∀ (n : BitVec 6) (s : State) (pos : Nat),
    n.toNat ≤ 32 → s.strm = .opened pos → pos + n.toNat ≤ s.w * s.h * s.c →
    ∃ (bits : List Bit) (t u : State) (v : Word),
      bits.length = n.toNat ∧
      (∀ (k : Nat) (hk : k < bits.length), ∃ r, runAll (List.replicate (k + 1) .pull) s = .next r ∧
        r.res = some (.pulled (some bits[k]))) ∧
      runAll (List.replicate n.toNat .pull) s = .next t ∧
      exec (.bits2i n) s = .next u ∧ u.res = some (.number v) ∧ t.strm = u.strm ∧
      v.toNat = ∑ k ∈ Finset.range n.toNat, (bits.getD k 0).toNat * 2 ^ (n.toNat - 1 - k)

/-- R116: a stream is forward-only: but for SOPEN, which makes a new one, no operation moves POS back or past
CAP. -/
def Obligations.StreamOnlyMovesForward : Prop :=
  ∀ (i : Instr) (s t : State) (pos pos' : Nat),
    i ≠ .sopen → s.strm = .opened pos → pos ≤ s.w * s.h * s.c → exec i s = .next t →
    t.strm = .opened pos' → pos ≤ pos' ∧ pos' ≤ t.w * t.h * t.c

/-! ### Header codec -/

/-- R131. -/
def Obligations.I2bGivesTheFourBytesMostSignificantFirst : Prop :=
  (∀ o : Operands, decode ⟨0x05#8, o⟩ = .ok (.i2b o.n32)) ∧
  ∀ (n : Word) (s : State), ∃ r : Bytes4,
    exec (.i2b n) s = .next { s with
      status := .ok, res := some (.bytes4 r), acc := none, len := none, hdr := none } ∧
    r.b0 = n.extractLsb' 24 8 ∧ r.b1 = n.extractLsb' 16 8 ∧ r.b2 = n.extractLsb' 8 8 ∧
    r.b3 = n.extractLsb' 0 8

/-- R133. -/
def Obligations.B2iGivesTheBigEndianNumber : Prop :=
  (∀ o : Operands, decode ⟨0x06#8, o⟩ = .ok (.b2i o.b4)) ∧
  ∀ (b : Bytes4) (s : State), ∃ m : Word,
    exec (.b2i b) s = .next { s with
      status := .ok, res := some (.u32 m), acc := none, len := none, hdr := none } ∧
    m.toNat = b.b0.toNat * 2 ^ 24 + b.b1.toNat * 2 ^ 16 + b.b2.toNat * 2 ^ 8 + b.b3.toNat

/-- R134: I2B and B2I undo each other, and B2I agrees with BITS2I 32 over the bits of B2BITS. -/
def Obligations.I2bAndB2iAreInverse : Prop :=
  (∀ (n : Word) (s : State), ∃ (t u : State) (b : Bytes4),
    exec (.i2b n) s = .next t ∧ t.res = some (.bytes4 b) ∧
    exec (.b2i b) t = .next u ∧ u.res = some (.u32 n)) ∧
  (∀ (b : Bytes4) (s : State), ∃ (t u : State) (n : Word),
    exec (.b2i b) s = .next t ∧ t.res = some (.u32 n) ∧
    exec (.i2b n) t = .next u ∧ u.res = some (.bytes4 b)) ∧
  (∀ (b : Bytes4) (s s' : State) (pos : Nat) (bits : List Bit) (t : State),
    exec (.b2bits [b.b0, b.b1, b.b2, b.b3]) s = .next t → t.res = some (.bits bits) →
    s'.strm = .opened pos → pos + 32 ≤ s'.w * s'.h * s'.c →
    (∀ k, k < 32 → bits[k]? = some ((s'.pix.read (pos + k)).extractLsb' 0 1)) →
    ∃ (u v : State) (n : Word), exec (.b2i b) s = .next u ∧ u.res = some (.u32 n) ∧
      exec (.bits2i 32#6) s' = .next v ∧ v.res = some (.number n))

/-- R137: the 32 bits B2BITS makes of I2B of a length carry it, bit k being bit 31 − k of it; BITS2I weighs
bit k by 2^(31 − k), and gives the length back where the stream holds those bits. -/
def Obligations.HeaderBitsRoundTrip : Prop :=
  (∀ (n : Word) (s : State), ∃ (t u : State) (b : Bytes4) (l : List Bit),
    exec (.i2b n) s = .next t ∧ t.res = some (.bytes4 b) ∧
    exec (.b2bits b.toList) t = .next u ∧ u.res = some (.bits l) ∧ l.length = 32 ∧
    (∀ k, k < 32 → l[k]? = some (n.extractLsb' (31 - k) 1)) ∧
    ∀ (s' : State) (pos : Nat), s'.strm = .opened pos → pos + 32 ≤ s'.w * s'.h * s'.c →
      (∀ k, k < 32 → l[k]? = some ((s'.pix.read (pos + k)).extractLsb' 0 1)) →
      ∃ v, exec (.bits2i 32#6) s' = .next v ∧ v.res = some (.number n)) ∧
  (∀ (s' : State) (pos : Nat), s'.strm = .opened pos → pos + 32 ≤ s'.w * s'.h * s'.c →
    ∃ v m, exec (.bits2i 32#6) s' = .next v ∧ v.res = some (.number m) ∧
      m.toNat = ∑ k ∈ Finset.range 32,
        ((s'.pix.read (pos + k)).extractLsb' 0 1).toNat * 2 ^ (31 - k))

/-! ### LSB embedder -/

/-- R141. -/
def Obligations.LsbrSelectsBitZero : Prop :=
  (∀ o : Operands, decode ⟨0x07#8, o⟩ = .ok (.lsbr o.v)) ∧
  ∀ (v : Byte) (s : State), exec (.lsbr v) s = .next { s with
    status := .ok, res := some (.bit (v.extractLsb' 0 1)), acc := none, len := none, hdr := none }

/-- R143. -/
def Obligations.LsbwReplacesBitZeroOnly : Prop :=
  (∀ o : Operands, decode ⟨0x08#8, o⟩ = .ok (.lsbw o.v o.b)) ∧
  ∀ (v : Byte) (b : Bit) (s : State), ∃ r : Byte,
    exec (.lsbw v b) s = .next { s with
      status := .ok, res := some (.byte r), acc := none, len := none, hdr := none } ∧
    r = (v &&& 0xFE#8) ||| b.setWidth 8 ∧ r.extractLsb' 0 1 = b ∧ r.extractLsb' 1 7 = v.extractLsb' 1 7

/-- R144: the laws of the two LSB functions, which LSBR and LSBW return. -/
def Obligations.LsbFunctionsObeyTheirLaws : Prop :=
  (∀ (v : Byte) (s : State), ∃ t, exec (.lsbr v) s = .next t ∧ t.res = some (.bit (lsb v))) ∧
  (∀ (v : Byte) (b : Bit) (s : State), ∃ t, exec (.lsbw v b) s = .next t ∧
    t.res = some (.byte (lsbReplace v b))) ∧
  (∀ (v : Byte) (b : Bit), lsb (lsbReplace v b) = b) ∧
  (∀ (v : Byte) (b : Bit), lsbReplace v b &&& 0xFE#8 = v &&& 0xFE#8) ∧
  (∀ v : Byte, lsbReplace v (lsb v) = v) ∧
  (∀ (v : Byte) (a b : Bit), lsbReplace (lsbReplace v a) b = lsbReplace v b)

/-- R145: grouping: the number of groups, the lanes of each, the padding. -/
def Obligations.GroupingPadsTheLastGroupWithZeros : Prop :=
  ∀ (c : Nat) (l : List Bit), 0 < c →
    (∀ n, (group c l).length ≤ n ↔ l.length ≤ n * c) ∧
    (∀ g ∈ group c l, g.length = c) ∧
    (∀ (i lane : Nat) (g : List Bit), (group c l)[i]? = some g → lane < c →
      g[lane]? = some (if h : i * c + lane < l.length then l[i * c + lane] else 0#1)) ∧
    (group c l).length * c - l.length < c

/-- R147. -/
def Obligations.PixrReadsTheLsbOfEveryChannel : Prop :=
  (∀ o : Operands, decode ⟨0x09#8, o⟩ = .ok (.pixr o.i)) ∧
  (∀ (i : Nat) (s : State), i < s.w * s.h → ∃ g : List Bit,
    exec (.pixr i) s = .next { s with
      status := .ok, res := some (.lanes g), acc := none, len := none, hdr := none,
      accesses := s.accesses ++ [.pixRead i] } ∧
    g.length = s.c ∧
    ∀ lane, lane < s.c → g[lane]? = some ((s.pix.read (s.pixelBase i + lane)).extractLsb' 0 1)) ∧
  (∀ (i : Nat) (s : State), s.w * s.h ≤ i →
    exec (.pixr i) s = .next { s with status := .illegalOp, res := none })

/-- R148: the result and frame of PIXW, that PIXR reads the group back, and that a second PIXW of the same
group changes nothing in PIX. The stored bytes are the C channels from `pixelBase i`, as in the meaning. -/
def Obligations.PixwReplacesTheLsbsOfOnePixel : Prop :=
  (∀ o : Operands, decode ⟨0x0A#8, o⟩ = .ok (.pixw o.i o.g)) ∧
  (∀ (i : Nat) (g : List Bit) (s : State), s.pix.wf → i < s.w * s.h → g.length = s.c →
    ∃ m : Memory,
      exec (.pixw i g) s = .next { s with
        pix := m, status := .ok, res := none, acc := none, len := none, hdr := none,
        accesses := s.accesses ++ [.pixRead i, .pixWrite i] } ∧
      m.wf ∧
      (∀ lane, lane < s.c → m.read (s.pixelBase i + lane) =
        (s.pix.read (s.pixelBase i + lane) &&& 0xFE#8) ||| (g.getD lane 0).setWidth 8) ∧
      (∀ k, k < s.pixelBase i ∨ s.pixelBase i + s.c ≤ k → m.read k = s.pix.read k)) ∧
  (∀ (i : Nat) (g : List Bit) (s t : State), s.pix.wf → i < s.w * s.h → g.length = s.c →
    exec (.pixw i g) s = .next t →
    (∃ u, exec (.pixr i) t = .next u ∧ u.res = some (.lanes g)) ∧
    (∃ u, exec (.pixw i g) t = .next u ∧ u.pix = t.pix)) ∧
  (∀ (i : Nat) (g : List Bit) (s : State), s.w * s.h ≤ i ∨ g.length ≠ s.c →
    exec (.pixw i g) s = .next { s with status := .illegalOp, res := none })

/-- R234 with R26, first half: the stream is lazy. After a PIXW, a byte write of the host or an EMBED under a
stream open at POS, the stream is still open at POS, and PULLs up to any position q at or after POS deliver
there the bit that was written, or the bit of before where q was not written. -/
def Obligations.OpenStreamSeesAWriteAheadOfIt : Prop :=
  (∀ (i : Nat) (g : List Bit) (s : State) (pos : Nat),
    s.pix.wf → i < s.w * s.h → g.length = s.c → s.strm = .opened pos →
    ∃ t, exec (.pixw i g) s = .next t ∧ t.strm = .opened pos ∧
      ∀ q, pos ≤ q → q < s.w * s.h * s.c →
        ∃ u, runAll (List.replicate (q - pos + 1) .pull) t = .next u ∧
          u.res = some (.pulled (some
            (if i * s.c ≤ q ∧ q < i * s.c + s.c then g.getD (q - i * s.c) 0
             else (s.pix.read q).extractLsb' 0 1)))) ∧
  (∀ (k : Nat) (v : Byte) (s : State) (rest : List HostAction) (pos : Nat),
    s.pending = .writePix k v :: rest → s.pix.wf → k < s.w * s.h * s.c → s.strm = .opened pos →
    ∃ t, step s = .next t ∧ t.strm = .opened pos ∧
      ∀ q, pos ≤ q → q < s.w * s.h * s.c →
        ∃ u, runAll (List.replicate (q - pos + 1) .pull) t = .next u ∧
          u.res = some (.pulled (some
            (if q = k then v.extractLsb' 0 1 else (s.pix.read q).extractLsb' 0 1)))) ∧
  (∀ (s : State) (pos : Nat), s.strm = .opened pos →
    ∃ t, exec .embed s = .next t ∧ t.strm = .opened pos ∧
      ∀ q, pos ≤ q → q < s.w * s.h * s.c →
        ∃ u, runAll (List.replicate (q - pos + 1) .pull) t = .next u ∧
          u.res = some (.pulled (some ((t.pix.read q).extractLsb' 0 1))))

/-! ### EMBED -/

/-- R158, R159, R162: EMBED of a payload that does not fit changes STATUS and RES and makes no access. -/
def Obligations.EmbedOfATooLargePayloadChangesNothing : Prop :=
  ∀ s : State, 4294967296 ≤ s.inp.len ∨ s.w * s.h * s.c < (4 + s.inp.len) * 8 →
    exec .embed s = .next { s with
      status := .payloadTooLarge, res := none, acc := none, len := none, hdr := none }

/-- R159: which lengths below 2^32 embed: exactly those up to floor(CAP / 8) − 4, where CAP ≥ 32; with any
other PIX is bit-identical to the input. -/
def Obligations.EmbedAcceptsUpToTheCapacity : Prop :=
  ∀ s : State, s.inp.len < 4294967296 → ∃ t, exec .embed s = .next t ∧
    (t.status = .ok ↔ (4 + s.inp.len) * 8 ≤ s.w * s.h * s.c) ∧
    (t.status = .ok ↔ 32 ≤ s.w * s.h * s.c ∧ s.inp.len ≤ s.w * s.h * s.c / 8 - 4) ∧
    (t.status ≠ .ok → t.status = .payloadTooLarge ∧ t.pix = s.pix)

/-- R161, with R80, R81 and R162's success: PIX after EMBED, channel by channel, and everything else EMBED
writes. IN is read once per byte and the pixels below G = ceil(REQ / C) are read and written once each, in
ascending order. -/
def Obligations.EmbedWritesTheFrameIntoTheLsbs : Prop :=
  (∀ o : Operands, decode ⟨0x0B#8, o⟩ = .ok .embed) ∧
  ∀ s : State, s.pix.wf → s.inp.len < 4294967296 → (4 + s.inp.len) * 8 ≤ s.w * s.h * s.c →
    ∃ (m : Memory) (G : Nat),
      (∀ n, G ≤ n ↔ (4 + s.inp.len) * 8 ≤ n * s.c) ∧
      exec .embed s = .next { s with
        pix := m, status := .ok, res := none, acc := none, len := none, hdr := none,
        accesses := s.accesses ++ (List.range s.inp.len).map .inRead ++
          (List.range G).flatMap fun p => [.pixRead p, .pixWrite p] } ∧
      m.wf ∧
      (∀ k, k < 32 → m.read k = (s.pix.read k &&& 0xFE#8) |||
        ((BitVec.ofNat 32 s.inp.len).extractLsb' (31 - k) 1).setWidth 8) ∧
      (∀ j t, j < s.inp.len → t ≤ 7 → m.read (32 + 8 * j + t) =
        (s.pix.read (32 + 8 * j + t) &&& 0xFE#8) |||
          ((s.inp.cells.read j).extractLsb' (7 - t) 1).setWidth 8) ∧
      (∀ k, (4 + s.inp.len) * 8 ≤ k → k < G * s.c → m.read k = s.pix.read k &&& 0xFE#8) ∧
      (∀ k, G * s.c ≤ k → m.read k = s.pix.read k)

/-- R164 (e): a second EMBED of the same payload into the result leaves PIX as it is. -/
def Obligations.EmbedIsIdempotent : Prop :=
  ∀ s t : State, s.pix.wf → exec .embed s = .next t → t.status = .ok →
    ∃ u, exec .embed t = .next u ∧ u.status = .ok ∧ u.pix = t.pix

/-- R157, step E5: EMBED leaves the same PIX as the host's own PIXW of each group, in order. -/
def Obligations.EmbeddingByHandAgrees : Prop :=
  ∀ s : State, s.inp.len < 4294967296 → (4 + s.inp.len) * 8 ≤ s.w * s.h * s.c →
    ∃ t u, exec .embed s = .next t ∧
      runAll ((group s.c (bytesToBits ((intToBytes (BitVec.ofNat 32 s.inp.len)).toList ++
        s.inp.toList))).zipIdx.map fun p => .pixw p.2 p.1) s = .next u ∧
      u.status = .ok ∧ u.pix = t.pix

/-! ### EXTRACT -/

/-- R179: an image of fewer than 32 channels. -/
def Obligations.ExtractOfASmallImageIsTruncated : Prop :=
  ∀ s : State, s.w * s.h * s.c < 32 →
    exec .extract s = .next { s with
      strm := .closed, out := none, status := .truncated, res := none,
      acc := none, len := none, hdr := none }

/-- R180, with R178: a declared frame that does not fit; nothing but the header is read. -/
def Obligations.ExtractOfAnOversizedFrameIsNoHiddenData : Prop :=
  ∀ s : State, 32 ≤ s.w * s.h * s.c →
    s.w * s.h * s.c < 32 + 8 * ∑ k ∈ Finset.range 32,
      ((s.pix.read k).extractLsb' 0 1).toNat * 2 ^ (31 - k) →
    exec .extract s = .next { s with
      strm := .closed, out := none, status := .noHiddenData, res := none,
      acc := none, len := none, hdr := none,
      accesses := s.accesses ++ (List.range 32).map fun k => .pixRead (k / s.c) }

/-- R180, with R179 and R198: which of its three outcomes EXTRACT ends in. -/
def Obligations.ExtractOutcomeIsDecidedByTheDeclaredLength : Prop :=
  ∀ (s : State) (L : Nat),
    L = ∑ k ∈ Finset.range 32, ((s.pix.read k).extractLsb' 0 1).toNat * 2 ^ (31 - k) →
    ∃ t, exec .extract s = .next t ∧
      (t.status = .truncated ↔ s.w * s.h * s.c < 32) ∧
      (t.status = .noHiddenData ↔ 32 ≤ s.w * s.h * s.c ∧ s.w * s.h * s.c < 32 + 8 * L) ∧
      (t.status = .ok ↔ 32 + 8 * L ≤ s.w * s.h * s.c)

/-- R181 and R183's success: a declared frame that fits, the exact fit included, is recovered byte by byte;
the header and payload channels are read in ascending order and OUT is written one byte after each eight. -/
def Obligations.ExtractRecoversTheDeclaredBytes : Prop :=
  (∀ o : Operands, decode ⟨0x0C#8, o⟩ = .ok .extract) ∧
  ∀ (s : State) (L : Nat),
    L = ∑ k ∈ Finset.range 32, ((s.pix.read k).extractLsb' 0 1).toNat * 2 ^ (31 - k) →
    32 + 8 * L ≤ s.w * s.h * s.c →
    ∃ o : ByteSeq,
      exec .extract s = .next { s with
        strm := .closed, out := some o, status := .ok, res := some (.olen (BitVec.ofNat 32 L)),
        acc := none, len := none, hdr := none,
        accesses := s.accesses ++ ((List.range 32).map fun k => .pixRead (k / s.c)) ++
          (List.range L).flatMap fun j =>
            ((List.range 8).map fun t => .pixRead ((32 + 8 * j + t) / s.c)) ++ [.outWrite j] } ∧
      o.wf ∧ o.len = L ∧ L < 4294967296 ∧
      ∀ j, j < L → (o.cells.read j).toNat =
        ∑ t ∈ Finset.range 8, ((s.pix.read (32 + 8 * j + t)).extractLsb' 0 1).toNat * 2 ^ (7 - t)

/-- R186: EXTRACT never changes the image, and a second EXTRACT gives the same STATUS, RES and OUT. -/
def Obligations.ExtractIsRepeatableAndLeavesTheImage : Prop :=
  ∀ s : State, ∃ t u, exec .extract s = .next t ∧ exec .extract t = .next u ∧
    t.pix = s.pix ∧ u.status = t.status ∧ u.res = t.res ∧ u.out = t.out ∧
    (∀ (p : Nat) (new : List Access), t.accesses = s.accesses ++ new → Access.pixWrite p ∉ new)

/-- R142 and R187: EXTRACT depends on nothing of PIX but bit 0 of the header's channels and of the channels
the header declares. -/
def Obligations.ExtractDependsOnlyOnTheDeclaredLsbs : Prop :=
  ∀ s1 s2 : State, s1.w = s2.w → s1.h = s2.h → s1.c = s2.c →
    (∀ k, k < 32 + 8 * ∑ k ∈ Finset.range 32, ((s1.pix.read k).extractLsb' 0 1).toNat * 2 ^ (31 - k) →
      (s1.pix.read k).extractLsb' 0 1 = (s2.pix.read k).extractLsb' 0 1) →
    ∃ t1 t2, exec .extract s1 = .next t1 ∧ exec .extract s2 = .next t2 ∧
      t1.status = t2.status ∧ t1.res = t2.res ∧ t1.out = t2.out

/-- R185: an image of even channels with at least 32 of them gives the empty payload. -/
def Obligations.ExtractOfAnEvenImageIsTheEmptyPayload : Prop :=
  ∀ s : State, 32 ≤ s.w * s.h * s.c → (∀ k, k < 32 → (s.pix.read k).extractLsb' 0 1 = 0#1) →
    ∃ t o, exec .extract s = .next t ∧ t.status = .ok ∧ t.res = some (.olen 0) ∧
      t.out = some o ∧ o.toList = []

/-- R184: EMBED then EXTRACT gives the payload back, for every image and every payload that fits, the exact
fit and the empty payload included: the frame's encoder and its decoder agree. -/
def Obligations.ExtractOfEmbedIsThePayload : Prop :=
  ∀ s : State, s.pix.wf → s.inp.len < 4294967296 → 32 + 8 * s.inp.len ≤ s.w * s.h * s.c →
    ∃ t u o, exec .embed s = .next t ∧ t.status = .ok ∧
      exec .extract t = .next u ∧ u.status = .ok ∧
      u.res = some (.olen (BitVec.ofNat 32 s.inp.len)) ∧
      u.out = some o ∧ o.toList = s.inp.toList

/-- R237: between EMBED and EXTRACT the image may change in any bit 7..1, in the pad channels and in every
channel beyond the frame: as long as the geometry and bit 0 of the frame's channels are kept, the payload
comes back. -/
def Obligations.ExtractSurvivesChangesOutsideTheFrame : Prop :=
  ∀ s t t' : State, s.pix.wf → exec .embed s = .next t → t.status = .ok →
    t'.w = t.w → t'.h = t.h → t'.c = t.c →
    (∀ k, k < 32 + 8 * s.inp.len →
      (t'.pix.read k).extractLsb' 0 1 = (t.pix.read k).extractLsb' 0 1) →
    ∃ u o, exec .extract t' = .next u ∧ u.status = .ok ∧
      u.res = some (.olen (BitVec.ofNat 32 s.inp.len)) ∧ u.out = some o ∧ o.toList = s.inp.toList

/-- R189: the host's own SOPEN, BITS2I 32 and BITS2I 8 obtain the same length and bytes as EXTRACT, and leave
the stream open. -/
def Obligations.HostDrivenExtractionAgrees : Prop :=
  ∀ (s t : State) (o : ByteSeq), exec .extract s = .next t → t.status = .ok → t.out = some o →
    (∃ u, runAll [.sopen, .bits2i 32#6] s = .next u ∧
      u.res = some (.number (BitVec.ofNat 32 o.len)) ∧ u.strm = .opened 32) ∧
    ∀ j, j < o.len → ∃ u,
      runAll (.sopen :: .bits2i 32#6 :: List.replicate (j + 1) (.bits2i 8#6)) s = .next u ∧
      u.res = some (.number ((o.cells.read j).setWidth 32)) ∧ u.strm = .opened (32 + 8 * (j + 1))

/-! ### The whole machine -/

/-- R59: no command changes bits 7..1 of any channel. -/
def Obligations.NoCommandChangesUpperChannelBits : Prop :=
  ∀ (i : Instr) (s t : State), s.pix.wf → exec i s = .next t →
    ∀ k, t.pix.read k &&& 0xFE#8 = s.pix.read k &&& 0xFE#8

/-- R24, R30, R31, R32, R61: what no command but the named ones can change: the geometry and the payload by
none, PIX by PIXW and EMBED only, OUT by EXTRACT only, the stream by the stream operations and EXTRACT
only. The host's queue is not a command's either (log 2). -/
def Obligations.CommandsChangeOnlyTheirOwnMemories : Prop :=
  ∀ (i : Instr) (s t : State), exec i s = .next t →
    t.w = s.w ∧ t.h = s.h ∧ t.c = s.c ∧ t.inp = s.inp ∧ t.pending = s.pending ∧
    ((∀ p g, i ≠ .pixw p g) → i ≠ .embed → t.pix = s.pix) ∧
    (i ≠ .extract → t.out = s.out) ∧
    (i ≠ .sopen → i ≠ .pull → (∀ n, i ≠ .bits2i n) → i ≠ .extract → t.strm = s.strm)

/-- R203 and R204: what each failure leaves behind, and what a `raise` changes. -/
def Obligations.FailuresLeaveTheImageAndTheirNamedState : Prop :=
  ∀ (i : Instr) (s t : State), exec i s = .next t →
    (t.status ≠ .ok → t.pix = s.pix) ∧
    (t.status = .noHiddenData ∨ t.status = .truncated → t.out = none) ∧
    (t.status = .streamExhausted → t.strm = .opened (s.w * s.h * s.c)) ∧
    (t.status = .illegalOp → t = { s with status := .illegalOp, res := none }) ∧
    (t.status ≠ .ok → t.status ≠ .illegalOp →
      t.res = none ∧ t.acc = none ∧ t.len = none ∧ t.hdr = none ∧
      t.pix = s.pix ∧ t.inp = s.inp ∧ t.w = s.w ∧ t.h = s.h ∧ t.c = s.c ∧
      (i = .extract → t.out = none ∧ t.strm = .closed))

/-- R28: the result register after each operation: typed by the operation on OK, no value on any other
outcome. -/
def Obligations.ResultsAreTypedByTheOperation : Prop :=
  ∀ (i : Instr) (s t : State), exec i s = .next t →
    (t.status ≠ .ok → t.res = none) ∧
    (t.status = .ok →
      match i with
      | .i2b _ => ∃ b, t.res = some (.bytes4 b)
      | .b2i _ => ∃ n, t.res = some (.u32 n)
      | .b2bits bytes => ∃ l, t.res = some (.bits l) ∧ l.length = 8 * bytes.length
      | .sopen => t.res = none
      | .pull => (∃ b, t.res = some (.pulled (some b))) ∨ t.res = some (.pulled none)
      | .bits2i n => ∃ v, t.res = some (.number v) ∧ v.toNat < 2 ^ n.toNat
      | .lsbr _ => ∃ b, t.res = some (.bit b)
      | .lsbw _ _ => ∃ v, t.res = some (.byte v)
      | .pixr _ => ∃ g, t.res = some (.lanes g) ∧ g.length = s.c
      | .pixw _ _ => t.res = none
      | .embed => t.res = none
      | .extract => ∃ o, t.out = some o ∧ t.res = some (.olen (BitVec.ofNat 32 o.len)) ∧
          o.len < 4294967296)

/-- R38: the outcome of a command depends only on W, H, C, PIX, IN, the command, and for PULL and BITS2I the
stream. -/
def Obligations.OutcomeDependsOnlyOnTheInputs : Prop :=
  ∀ (i : Instr) (s1 s2 : State), s1.w = s2.w → s1.h = s2.h → s1.c = s2.c → s1.pix = s2.pix →
    s1.inp = s2.inp → ((i = .pull ∨ ∃ n, i = .bits2i n) → s1.strm = s2.strm) →
    ∃ t1 t2, exec i s1 = .next t1 ∧ exec i s2 = .next t2 ∧
      t1.status = t2.status ∧ t1.res = t2.res ∧ t1.pix = t2.pix ∧
      (i = .extract → t1.out = t2.out) ∧
      ((i = .sopen ∨ i = .pull ∨ (∃ n, i = .bits2i n) ∨ i = .extract) → t1.strm = t2.strm)

/-- R57: no command addresses a pixel at or beyond NPIX or a payload byte at or beyond PLEN. -/
def Obligations.NoCommandAddressesOutsideItsMemories : Prop :=
  ∀ (i : Instr) (s t : State), exec i s = .next t →
    ∃ new : List Access, t.accesses = s.accesses ++ new ∧ ∀ a ∈ new,
      match a with
      | .pixRead p => p < s.w * s.h
      | .pixWrite p => p < s.w * s.h
      | .inRead j => j < s.inp.len
      | .outWrite j => j < 4294967296

/-- Every step of the machine, whatever the host's next action, keeps the invariant: the memories canonical
and inside their address spaces, POS within CAP, the datapath registers empty, no result without OK. -/
def Obligations.EveryStepKeepsTheInvariant : Prop :=
  ∀ s t : State, s.inv → step s = .next t → t.inv

/-- The state after power-up and reset has the invariant. -/
def Obligations.ResetHasTheInvariant : Prop := State.reset.inv

/-! ### The host -/

/-- R225 (R37): the reset event. -/
def Obligations.ResetClearsTheBlockAndKeepsTheHostState : Prop :=
  (∀ (s : State) (rest : List HostAction), s.pending = .reset :: rest →
    step s = .next { s with
      pending := rest, status := .none, res := none, out := none, acc := none, len := none,
      hdr := none, strm := .closed }) ∧
  State.reset.status = .none ∧ State.reset.res = none ∧ State.reset.out = none ∧
  State.reset.acc = none ∧ State.reset.len = none ∧ State.reset.hdr = none ∧
  State.reset.strm = .closed

/-- R34: LOADIMG, LOADPAY and a byte write by the host. -/
def Obligations.HostWritesReachTheirMemories : Prop :=
  (∀ (s : State) (rest : List HostAction) (w h c : Nat) (pixels : List Byte),
    s.pending = .loadImg w h c pixels :: rest → pixels.length = w * h * c →
    ∃ m : Memory, step s = .next { s with
        pending := rest, w := w, h := h, c := c, pix := m, strm := .closed } ∧
      m.wf ∧ m.below (w * h * c) ∧ ∀ k, k < w * h * c → m.read k = pixels.getD k 0) ∧
  (∀ (s : State) (rest : List HostAction) (bytes : List Byte),
    s.pending = .loadPay bytes :: rest →
    ∃ b : ByteSeq, step s = .next { s with pending := rest, inp := b } ∧ b.wf ∧ b.toList = bytes) ∧
  (∀ (s : State) (rest : List HostAction) (k : Nat) (v : Byte),
    s.pending = .writePix k v :: rest → s.pix.wf → k < s.w * s.h * s.c →
    ∃ m : Memory, step s = .next { s with pending := rest, pix := m } ∧ m.wf ∧ m.read k = v ∧
      ∀ k', k' ≠ k → m.read k' = s.pix.read k')

/-- R34, R21 and R196, with U10 and U22: a host read changes nothing but the queue and gives the value of what
it reads, STATUS by its code; a read of RES or OUT that holds no value, and of OUT at or beyond OLEN, is a
fault. That a channel at or beyond CAP faults too is the model's reading (log 10). -/
def Obligations.HostReadsChangeNothingAndFaultOnNoValue : Prop :=
  (∀ (s t : State) (rest : List HostAction) (what : ReadTarget),
    s.pending = .read what :: rest → step s = .next t → t = { s with pending := rest }) ∧
  (∀ (s : State) (rest : List HostAction), s.pending = .read .res :: rest → s.res = none →
    step s = .fault (.noValue .res)) ∧
  (∀ (s : State) (rest : List HostAction) (j : Nat), s.pending = .read (.out j) :: rest →
    s.out = none → step s = .fault (.noValue .out)) ∧
  (∀ (s : State) (rest : List HostAction), s.pending = .read .status :: rest →
    hostReadStatus s = statusCode s.status ∧ step s = .next { s with pending := rest }) ∧
  (∀ (s : State) (rest : List HostAction) (v : ResVal), s.pending = .read .res :: rest →
    s.res = some v → hostReadRes s = .ok v ∧ step s = .next { s with pending := rest }) ∧
  (∀ (s : State) (rest : List HostAction) (j : Nat) (o : ByteSeq),
    s.pending = .read (.out j) :: rest → s.out = some o → j < o.len →
    hostReadOut j s = .ok (o.cells.read j) ∧ step s = .next { s with pending := rest }) ∧
  (∀ (s : State) (rest : List HostAction) (k : Nat), s.pending = .read (.pix k) :: rest →
    k < s.w * s.h * s.c →
    hostReadPix k s = .ok (s.pix.read k) ∧ step s = .next { s with pending := rest }) ∧
  (∀ (s : State) (rest : List HostAction) (j : Nat) (o : ByteSeq),
    s.pending = .read (.out j) :: rest → s.out = some o → o.len ≤ j →
    hostReadOut j s = .error (.output j) ∧ step s = .fault (.output j)) ∧
  (∀ (s : State) (rest : List HostAction) (k : Nat), s.pending = .read (.pix k) :: rest →
    s.w * s.h * s.c ≤ k → hostReadPix k s = .error (.channel k) ∧ step s = .fault (.channel k))

/-- R96, R135 and R136: the pseudo-operations: HDRENC of a length that does not fit 32 bits is
PayloadTooLarge; otherwise HDRENC, HDRDEC and RDBYTE are the operations they expand to. That HDRENC's check
ends in STATUS like a command's is the model's reading (log 11). -/
def Obligations.PseudoOperationsExpand : Prop :=
  (∀ (s : State) (rest : List HostAction) (l : Nat), s.pending = .hdrenc l :: rest → 4294967296 ≤ l →
    step s = .next { s with
      pending := rest, accesses := [], status := .payloadTooLarge, res := none,
      acc := none, len := none, hdr := none }) ∧
  (∀ (s : State) (rest : List HostAction) (l : Nat), s.pending = .hdrenc l :: rest → l < 4294967296 →
    step s = exec (.i2b (BitVec.ofNat 32 l)) { s with pending := rest, accesses := [] }) ∧
  (∀ (s : State) (rest : List HostAction), s.pending = .hdrdec :: rest →
    step s = exec (.bits2i 32#6) { s with pending := rest, accesses := [] }) ∧
  (∀ (s : State) (rest : List HostAction), s.pending = .rdbyte :: rest →
    step s = exec (.bits2i 8#6) { s with pending := rest, accesses := [] })

/-- R196: the codes of STATUS, and that code 6 is unused. -/
def Obligations.StatusCodesAreTheTable : Prop :=
  statusCode .ok = 0 ∧ statusCode .payloadTooLarge = 1 ∧ statusCode .noHiddenData = 2 ∧
  statusCode .truncated = 3 ∧ statusCode .streamExhausted = 4 ∧ statusCode .illegalOp = 5 ∧
  statusCode .none = 7 ∧ ∀ x : Status, statusCode x ≠ 6

/-! ### The stream, continued -/

/-- R234 with R26, second half: a write to a position already passed has no effect on the stream. Two states
whose channels from POS on agree in bit 0 deliver the same under any number of PULLs, the exhaustion signal
included; so a byte write of the host behind POS, a PIXW of a pixel that lies behind POS, and the lanes
behind POS of any PIXW change nothing of what is delivered. -/
def Obligations.StreamIgnoresWritesBehindIt : Prop :=
  (∀ (s1 s2 : State) (pos : Nat), s1.w = s2.w → s1.h = s2.h → s1.c = s2.c →
    s1.strm = .opened pos → s2.strm = .opened pos → pos ≤ s1.w * s1.h * s1.c →
    (∀ k, pos ≤ k → k < s1.w * s1.h * s1.c →
      (s1.pix.read k).extractLsb' 0 1 = (s2.pix.read k).extractLsb' 0 1) →
    ∀ n, ∃ u1 u2, runAll (List.replicate (n + 1) .pull) s1 = .next u1 ∧
      runAll (List.replicate (n + 1) .pull) s2 = .next u2 ∧ u1.res = u2.res ∧ u1.strm = u2.strm) ∧
  (∀ (k : Nat) (v : Byte) (s : State) (rest : List HostAction) (pos : Nat),
    s.pending = .writePix k v :: rest → s.pix.wf → s.strm = .opened pos →
    pos ≤ s.w * s.h * s.c → k < pos →
    ∃ t, step s = .next t ∧ ∀ n, ∃ u1 u2, runAll (List.replicate (n + 1) .pull) s = .next u1 ∧
      runAll (List.replicate (n + 1) .pull) t = .next u2 ∧ u1.res = u2.res ∧ u1.strm = u2.strm) ∧
  (∀ (i : Nat) (g : List Bit) (s : State) (pos : Nat), s.pix.wf → i < s.w * s.h → g.length = s.c →
    s.strm = .opened pos → pos ≤ s.w * s.h * s.c → i * s.c + s.c ≤ pos →
    ∃ t, exec (.pixw i g) s = .next t ∧
      ∀ n, ∃ u1 u2, runAll (List.replicate (n + 1) .pull) s = .next u1 ∧
        runAll (List.replicate (n + 1) .pull) t = .next u2 ∧ u1.res = u2.res ∧ u1.strm = u2.strm) ∧
  (∀ (i : Nat) (g g' : List Bit) (s : State) (pos : Nat), s.pix.wf → i < s.w * s.h →
    g.length = s.c → g'.length = s.c → s.strm = .opened pos → pos ≤ s.w * s.h * s.c →
    (∀ lane, lane < s.c → pos ≤ i * s.c + lane → g.getD lane 0 = g'.getD lane 0) →
    ∃ t t', exec (.pixw i g) s = .next t ∧ exec (.pixw i g') s = .next t' ∧
      ∀ n, ∃ u1 u2, runAll (List.replicate (n + 1) .pull) t = .next u1 ∧
        runAll (List.replicate (n + 1) .pull) t' = .next u2 ∧ u1.res = u2.res ∧ u1.strm = u2.strm)

/-- The model's choice (log 14) in states the spec does not have (R20, R116): a POS beyond CAP counts as
exhausted. PULL reports exhaustion and moves nothing, BITS2I 0 gives 0 and moves nothing, and BITS2I of more
bits ends with StreamExhausted and POS = CAP. -/
def Obligations.PositionsBeyondCapCountAsExhausted : Prop :=
  ∀ (s : State) (pos : Nat), s.strm = .opened pos → s.w * s.h * s.c < pos →
    exec .pull s = .next { s with
      status := .ok, res := some (.pulled none), acc := none, len := none, hdr := none } ∧
    exec (.bits2i 0#6) s = .next { s with
      status := .ok, res := some (.number 0), acc := none, len := none, hdr := none } ∧
    ∀ n : BitVec 6, 0 < n.toNat → n.toNat ≤ 32 →
      exec (.bits2i n) s = .next { s with
        strm := .opened (s.w * s.h * s.c), status := .streamExhausted, res := none,
        acc := none, len := none, hdr := none }
end

