-- ==== Sys2Proof/Laws/Memory.lean ====
section
/-! SUPPORT. The laws of the memory form: read after write, the canonical form is kept, equal reads make
equal memories, and the byte sequences built on it. -/

namespace Sys2Proof.Machine

/-! ### The head of a canonical memory -/

theorem Memory.wf_cons {k : Nat} {x : Byte} {m : Memory} :
    Memory.wf ((k, x) :: m) ↔ x ≠ Config.unlisted ∧ (∀ y ∈ m, k < y.1) ∧ m.wf := by
  simp only [Memory.wf, List.pairwise_cons, List.mem_cons, forall_eq_or_imp]
  tauto

theorem Memory.wf_nil : Memory.wf [] := ⟨List.Pairwise.nil, by simp⟩

/-- Below its first address a memory lists nothing. -/
theorem Memory.read_before {m : Memory} {a : Nat} (h : ∀ y ∈ m, a < y.1) :
    m.read a = Config.unlisted := by
  induction m with
  | nil => rfl
  | cons y m ih =>
    have hy : a < y.1 := h y (by simp)
    rw [Memory.read, if_neg (by omega), ih (fun z hz => h z (by simp [hz]))]

theorem Memory.read_cons (a : Nat) (v : Byte) {m : Memory} (h : ∀ y ∈ m, a < y.1) (b : Nat) :
    (Memory.cons a v m).read b = if b = a then v else m.read b := by
  unfold Memory.cons
  by_cases hb : b = a
  · subst hb
    split
    · next hv => simp [hv, Memory.read_before h]
    · simp [Memory.read]
  · split
    · simp
    · simp [Memory.read, Ne.symm hb]

theorem Memory.cons_wf {a : Nat} {v : Byte} {m : Memory} (h : ∀ y ∈ m, a < y.1) (hm : m.wf) :
    (Memory.cons a v m).wf := by
  unfold Memory.cons
  split
  · exact hm
  · next hv => exact Memory.wf_cons.2 ⟨hv, h, hm⟩

theorem Memory.mem_cons {a : Nat} {v : Byte} {m : Memory} {y : Host.Cell}
    (h : y ∈ Memory.cons a v m) : y.1 = a ∨ y ∈ m := by
  unfold Memory.cons at h
  split at h
  · exact .inr h
  · rcases List.mem_cons.1 h with h | h
    · exact .inl (by rw [h])
    · exact .inr h

/-! ### One byte -/

theorem Memory.mem_write {m : Memory} {a : Nat} {v : Byte} {y : Host.Cell} (h : y ∈ m.write a v) :
    y.1 = a ∨ y ∈ m := by
  induction m with
  | nil => exact Memory.mem_cons h
  | cons x m ih =>
    obtain ⟨k, w⟩ := x
    simp only [Memory.write] at h
    split at h
    · exact Memory.mem_cons h
    · split at h
      · rcases Memory.mem_cons h with h | h
        · exact .inl h
        · exact .inr (List.mem_cons_of_mem _ h)
      · rcases List.mem_cons.1 h with h | h
        · exact .inr (h ▸ List.mem_cons_self)
        · rcases ih h with h | h
          · exact .inl h
          · exact .inr (List.mem_cons_of_mem _ h)

/-- A write keeps the canonical form. -/
theorem Memory.write_wf {m : Memory} (hm : m.wf) (a : Nat) (v : Byte) : (m.write a v).wf := by
  induction m with
  | nil => exact Memory.cons_wf (by simp) Memory.wf_nil
  | cons x m ih =>
    obtain ⟨k, w⟩ := x
    obtain ⟨hw, hk, hm'⟩ := Memory.wf_cons.1 hm
    simp only [Memory.write]
    split
    · next h =>
      refine Memory.cons_wf (fun y hy => ?_) hm
      rcases List.mem_cons.1 hy with hy | hy
      · simpa [hy] using h
      · exact h.trans (hk y hy)
    · split
      · next h => exact Memory.cons_wf (fun y hy => h ▸ hk y hy) hm'
      · refine Memory.wf_cons.2 ⟨hw, fun y hy => ?_, ih hm'⟩
        rcases Memory.mem_write hy with hy | hy
        · omega
        · exact hk y hy

/-- Read after write: the written address reads the value, every other reads as before. -/
theorem Memory.read_write {m : Memory} (hm : m.wf) (a : Nat) (v : Byte) (b : Nat) :
    (m.write a v).read b = if b = a then v else m.read b := by
  induction m with
  | nil => simpa [Memory.write] using Memory.read_cons a v (m := []) (by simp) b
  | cons x m ih =>
    obtain ⟨k, w⟩ := x
    obtain ⟨_, hk, hm'⟩ := Memory.wf_cons.1 hm
    simp only [Memory.write]
    split
    · next h =>
      refine Memory.read_cons a v (fun y hy => ?_) b
      rcases List.mem_cons.1 hy with hy | hy
      · simpa [hy] using h
      · exact h.trans (hk y hy)
    · split
      · next h =>
        subst h
        rw [Memory.read_cons a v hk b]
        by_cases hb : b = a
        · simp [hb]
        · simp [hb, Memory.read, Ne.symm hb]
      · next h1 h2 =>
        simp only [Memory.read, ih hm']
        by_cases hb : b = a
        · subst hb; simp [Ne.symm h2]
        · simp [hb]

/-- A write inside `n` bytes lists nothing outside them. -/
theorem Memory.write_below {m : Memory} {n a : Nat} (hm : m.below n) (ha : a < n) (v : Byte) :
    (m.write a v).below n := by
  intro y hy
  rcases Memory.mem_write hy with h | h
  · omega
  · exact hm y h

/-! ### A run of bytes -/

theorem Memory.writeRun_wf {m : Memory} (hm : m.wf) (a : Nat) (vs : List Byte) :
    (m.writeRun a vs).wf := by
  induction vs generalizing m a with
  | nil => exact hm
  | cons v vs ih => exact ih (Memory.write_wf hm a v) (a + 1)

theorem Memory.writeRun_below {m : Memory} {n a : Nat} {vs : List Byte} (hm : m.below n)
    (h : a + vs.length ≤ n) : (m.writeRun a vs).below n := by
  induction vs generalizing m a with
  | nil => exact hm
  | cons v vs ih =>
    simp only [List.length_cons] at h
    exact ih (Memory.write_below hm (by omega) v) (by omega)

/-- After a run of writes each address of the run reads its byte, every other reads as before. -/
theorem Memory.read_writeRun {m : Memory} (hm : m.wf) (a : Nat) (vs : List Byte) (b : Nat) :
    (m.writeRun a vs).read b =
      if a ≤ b ∧ b < a + vs.length then vs.getD (b - a) 0 else m.read b := by
  induction vs generalizing m a with
  | nil => rw [if_neg (by simp)]; rfl
  | cons v vs ih =>
    rw [Memory.writeRun, ih (Memory.write_wf hm a v), Memory.read_write hm]
    by_cases hb : b = a
    · subst hb; simp
    · by_cases h : a + 1 ≤ b ∧ b < a + 1 + vs.length
      · rw [if_pos h, if_pos (by simp; omega)]
        obtain ⟨d, rfl⟩ : ∃ d, b = a + 1 + d := ⟨b - (a + 1), by omega⟩
        simp [show a + 1 + d - a = d + 1 by omega]
      · rw [if_neg h, if_neg hb, if_neg (by simp only [List.length_cons]; omega)]

/-! ### A memory made from bytes -/

theorem Memory.mem_ofBytes {a : Nat} {vs : List Byte} {y : Host.Cell} (h : y ∈ Memory.ofBytes a vs) :
    a ≤ y.1 ∧ y.1 < a + vs.length := by
  induction vs generalizing a with
  | nil => simp [Memory.ofBytes] at h
  | cons v vs ih =>
    rcases Memory.mem_cons h with h | h
    · simp only [List.length_cons]; omega
    · have := ih h; simp only [List.length_cons]; omega

theorem Memory.ofBytes_wf (a : Nat) (vs : List Byte) : (Memory.ofBytes a vs).wf := by
  induction vs generalizing a with
  | nil => exact Memory.wf_nil
  | cons v vs ih =>
    exact Memory.cons_wf (fun y hy => by have := Memory.mem_ofBytes hy; omega) (ih (a + 1))

theorem Memory.ofBytes_below (a : Nat) (vs : List Byte) :
    (Memory.ofBytes a vs).below (a + vs.length) := fun _ hy => (Memory.mem_ofBytes hy).2

/-- Each address of a memory made from bytes reads its byte. -/
theorem Memory.read_ofBytes (a : Nat) (vs : List Byte) (j : Nat) :
    (Memory.ofBytes a vs).read (a + j) = vs.getD j 0 := by
  induction vs generalizing a j with
  | nil => simp [Memory.ofBytes, Memory.read, Config.unlisted]
  | cons v vs ih =>
    rw [Memory.ofBytes,
      Memory.read_cons _ _ (fun y hy => by have := Memory.mem_ofBytes hy; omega)]
    cases j with
    | zero => simp
    | succ j =>
      rw [if_neg (by omega), show a + (j + 1) = a + 1 + j by omega, ih]
      simp

/-! ### Equal reads, equal memories -/

/-- The form is canonical: two memories that read the same everywhere are the same list. -/
theorem Memory.ext_read {m n : Memory} (hm : m.wf) (hn : n.wf) (h : ∀ a, m.read a = n.read a) :
    m = n := by
  induction m generalizing n with
  | nil =>
    cases n with
    | nil => rfl
    | cons y n =>
      obtain ⟨k, x⟩ := y
      obtain ⟨hx, _, _⟩ := Memory.wf_cons.1 hn
      have := h k
      simp [Memory.read] at this
      exact absurd this.symm hx
  | cons y m ih =>
    obtain ⟨k, x⟩ := y
    obtain ⟨hx, hk, hm'⟩ := Memory.wf_cons.1 hm
    cases n with
    | nil =>
      have := h k
      simp [Memory.read] at this
      exact absurd this hx
    | cons z n =>
      obtain ⟨l, w⟩ := z
      obtain ⟨hw, hl, hn'⟩ := Memory.wf_cons.1 hn
      have hkl : k = l := by
        rcases Nat.lt_trichotomy k l with hlt | heq | hgt
        · have e := h k
          rw [Memory.read_before (m := (l, w) :: n) (by
            intro y hy
            rcases List.mem_cons.1 hy with hy | hy
            · simpa [hy] using hlt
            · exact hlt.trans (hl y hy))] at e
          simp [Memory.read] at e
          exact absurd e hx
        · exact heq
        · have e := h l
          rw [Memory.read_before (m := (k, x) :: m) (by
            intro y hy
            rcases List.mem_cons.1 hy with hy | hy
            · simpa [hy] using hgt
            · exact hgt.trans (hk y hy))] at e
          simp [Memory.read] at e
          exact absurd e.symm hw
      subst hkl
      have hxw : x = w := by simpa [Memory.read] using h k
      subst hxw
      congr 1
      refine ih hm' hn' fun a => ?_
      by_cases ha : k = a
      · subst ha; rw [Memory.read_before hk, Memory.read_before hl]
      · simpa [Memory.read, ha] using h a

/-! ### Byte sequences -/

@[simp] theorem ByteSeq.length_toList (b : ByteSeq) : b.toList.length = b.len := by
  simp [ByteSeq.toList]

theorem ByteSeq.getElem_toList (b : ByteSeq) {j : Nat} (h : j < b.toList.length) :
    b.toList[j] = b.cells.read j := by
  simp [ByteSeq.toList]

theorem ByteSeq.ofList_wf (l : List Byte) : (ByteSeq.ofList l).wf := by
  refine ⟨Memory.ofBytes_wf 0 l, ?_⟩
  simpa [ByteSeq.ofList] using Memory.ofBytes_below 0 l

@[simp] theorem ByteSeq.toList_ofList (l : List Byte) : (ByteSeq.ofList l).toList = l := by
  refine List.ext_getElem (by simp [ByteSeq.ofList]) fun j h1 h2 => ?_
  rw [ByteSeq.getElem_toList]
  have := Memory.read_ofBytes 0 l j
  simp only [Nat.zero_add] at this
  simp [ByteSeq.ofList, this, h2]

/-- Canonical byte sequences with the same bytes are equal. -/
theorem ByteSeq.ext_toList {a b : ByteSeq} (ha : a.wf) (hb : b.wf) (h : a.toList = b.toList) : a = b := by
  have hlen : a.len = b.len := by simpa using congrArg List.length h
  have hcells : a.cells = b.cells := by
    refine Memory.ext_read ha.1 hb.1 fun j => ?_
    by_cases hj : j < a.len
    · have h1 := a.getElem_toList (j := j) (by simpa using hj)
      have h2 := b.getElem_toList (j := j) (by simpa [← hlen] using hj)
      rw [← h1, ← h2]
      simp only [h]
    · have out : ∀ {c : ByteSeq}, c.wf → c.len ≤ j → c.cells.read j = Config.unlisted := by
        intro c hc hcj
        have : ∀ (m : Memory), m.below c.len → m.read j = Config.unlisted := by
          intro m
          induction m with
          | nil => intro _; rfl
          | cons y m ih =>
            intro hm
            have hy := hm y (by simp)
            rw [Memory.read, if_neg (by omega), ih fun z hz => hm z (by simp [hz])]
        exact this c.cells hc.2
      rw [out ha (by omega), out hb (by omega)]
  cases a; cases b; simp_all

end Sys2Proof.Machine
end

