-- ==== Sys2Proof/Laws/Operands.lean ====
section
/-! SUPPORT. The laws of bits, bytes, the header codec, grouping and the capacity arithmetic. -/

namespace Sys2Proof.Machine

/-! ### Bits of bytes -/

theorem bit_cases (b : Bit) : b = 0 ∨ b = 1 := by
  revert b; decide

theorem lsb_lsbReplace (v : Byte) (b : Bit) : lsb (lsbReplace v b) = b := by
  revert v b; decide

theorem keep_lsbReplace (v : Byte) (b : Bit) :
    lsbReplace v b &&& Config.keepMask = v &&& Config.keepMask := by
  revert v b; decide

theorem lsbReplace_lsb (v : Byte) : lsbReplace v (lsb v) = v := by
  revert v; decide

theorem lsbReplace_lsbReplace (v : Byte) (a b : Bit) :
    lsbReplace (lsbReplace v a) b = lsbReplace v b := by
  revert v a b; decide

theorem lsbReplace_zero (v : Byte) : lsbReplace v 0 = v &&& Config.keepMask := by
  revert v; decide

@[simp] theorem length_byteBits (v : Byte) : (byteBits v).length = 8 := by simp [byteBits]

@[simp] theorem length_bytesToBits (l : List Byte) : (bytesToBits l).length = 8 * l.length := by
  induction l with
  | nil => rfl
  | cons v l ih =>
    simp only [bytesToBits, List.flatMap_cons, List.length_append, length_byteBits,
      List.length_cons] at *
    omega

theorem bytesToBits_append (a b : List Byte) :
    bytesToBits (a ++ b) = bytesToBits a ++ bytesToBits b := by
  simp [bytesToBits]

@[simp] theorem length_toList (b : Bytes4) : b.toList.length = 4 := rfl

@[simp] theorem length_frameBits (h : Bytes4) (p : List Byte) :
    (frameBits h p).length = required p.length := by
  simp [frameBits, required]; omega

/-! ### The accumulator -/

/-- The accumulator's step on numbers: twice the old value, plus the bit, as long as it fits. -/
theorem toNat_shiftIn (a : Word) (b : Bit) (h : a.toNat < 2 ^ 31) :
    (shiftIn a b).toNat = 2 * a.toNat + b.toNat := by
  have hb : b.toNat < 2 := b.isLt
  rw [shiftIn, BitVec.toNat_or, BitVec.toNat_shiftLeft, BitVec.toNat_setWidth,
    Nat.mod_eq_of_lt (a := b.toNat) (by omega), Nat.shiftLeft_eq,
    Nat.mod_eq_of_lt (by omega), pow_one, Nat.mul_comm,
    show 2 * a.toNat = 2 ^ 1 * a.toNat by omega, ← Nat.two_pow_add_eq_or_of_lt (by omega)]

/-- The number of a bit sequence, most significant bit first, as an exact natural number. -/
def bitsNat (l : List Bit) : Nat := l.foldl (fun a b => 2 * a + b.toNat) 0

theorem foldl_bits (l : List Bit) (a : Nat) :
    l.foldl (fun a b => 2 * a + b.toNat) a = a * 2 ^ l.length + bitsNat l := by
  induction l generalizing a with
  | nil => simp [bitsNat]
  | cons b l ih =>
    have h0 := ih b.toNat
    simp only [bitsNat, List.foldl_cons, List.length_cons, Nat.mul_zero, Nat.zero_add] at *
    rw [ih, h0]; ring

theorem bitsNat_cons (b : Bit) (l : List Bit) :
    bitsNat (b :: l) = b.toNat * 2 ^ l.length + bitsNat l := by
  have h := foldl_bits l b.toNat
  simpa [bitsNat] using h

theorem bitsNat_append (k l : List Bit) : bitsNat (k ++ l) = bitsNat k * 2 ^ l.length + bitsNat l := by
  simp only [bitsNat, List.foldl_append]; rw [foldl_bits]; rfl

/-- The exact number of a bit sequence, as the sum of R85 b. -/
theorem bitsNat_eq_sum (l : List Bit) :
    bitsNat l = ∑ t ∈ Finset.range l.length, (l.getD t 0).toNat * 2 ^ (l.length - 1 - t) := by
  induction l with
  | nil => simp [bitsNat]
  | cons b l ih =>
    rw [bitsNat_cons, ih, List.length_cons, Finset.sum_range_succ', Nat.add_comm]
    congr 1
    refine Finset.sum_congr rfl fun t _ => ?_
    rw [List.getD_cons_succ, show l.length + 1 - 1 - (t + 1) = l.length - 1 - t by omega]

theorem bitsNat_lt (l : List Bit) : bitsNat l < 2 ^ l.length := by
  induction l with
  | nil => simp [bitsNat]
  | cons b l ih =>
    have hb : b.toNat < 2 := b.isLt
    rw [bitsNat_cons, List.length_cons, pow_succ]
    nlinarith [Nat.two_pow_pos l.length]

theorem toNat_foldl_shiftIn (l : List Bit) (a : Word) (h : a.toNat * 2 ^ l.length + 2 ^ l.length ≤ 2 ^ 32) :
    (l.foldl shiftIn a).toNat = a.toNat * 2 ^ l.length + bitsNat l := by
  induction l generalizing a with
  | nil => simp [bitsNat]
  | cons b l ih =>
    have hb : b.toNat < 2 := b.isLt
    have hp := Nat.two_pow_pos l.length
    rw [List.length_cons, pow_succ] at h
    have ha : a.toNat < 2 ^ 31 := by nlinarith
    rw [List.foldl_cons, ih, toNat_shiftIn _ _ ha, bitsNat_cons, List.length_cons, pow_succ]
    · ring
    · rw [toNat_shiftIn _ _ ha]; nlinarith

/-- Up to 32 bits assemble to their exact number (R85 b, R117). -/
theorem toNat_bitsToInt {l : List Bit} (h : l.length ≤ 32) : (bitsToInt l).toNat = bitsNat l := by
  have := Nat.pow_le_pow_right (show 2 > 0 by omega) h
  rw [bitsToInt, toNat_foldl_shiftIn _ _ (by simpa using this)]; simp

/-- The bits of a byte assemble to the byte (R119 b). -/
theorem bitsToInt_byteBits (v : Byte) : (bitsToInt (byteBits v)).setWidth 8 = v := by
  revert v; decide

theorem bitsNat_byteBits (v : Byte) : bitsNat (byteBits v) = v.toNat := by
  revert v; decide

/-! ### The header codec -/

theorem toNat_bytesToInt (b : Bytes4) :
    (bytesToInt b).toNat =
      b.b0.toNat * 2 ^ 24 + b.b1.toNat * 2 ^ 16 + b.b2.toNat * 2 ^ 8 + b.b3.toNat := by
  obtain ⟨b0, b1, b2, b3⟩ := b
  have h0 := b0.isLt
  have h1 := b1.isLt
  have h2 := b2.isLt
  have h3 := b3.isLt
  simp only [bytesToInt, BitVec.toNat_or, BitVec.toNat_shiftLeft, BitVec.toNat_setWidth,
    Nat.shiftLeft_eq]
  rw [Nat.mod_eq_of_lt (a := b0.toNat) (by omega), Nat.mod_eq_of_lt (a := b1.toNat) (by omega),
    Nat.mod_eq_of_lt (a := b2.toNat) (by omega), Nat.mod_eq_of_lt (a := b3.toNat) (by omega),
    Nat.mod_eq_of_lt (a := b0.toNat * 2 ^ 24) (by omega),
    Nat.mod_eq_of_lt (a := b1.toNat * 2 ^ 16) (by omega),
    Nat.mod_eq_of_lt (a := b2.toNat * 2 ^ 8) (by omega)]
  have e1 := Nat.two_pow_add_eq_or_of_lt (i := 24) (b := b1.toNat * 2 ^ 16) (by omega) b0.toNat
  have e2 := Nat.two_pow_add_eq_or_of_lt (i := 16) (b := b2.toNat * 2 ^ 8) (by omega)
    (b0.toNat * 2 ^ 8 + b1.toNat)
  have e3 := Nat.two_pow_add_eq_or_of_lt (i := 8) (b := b3.toNat) (by omega)
    (b0.toNat * 2 ^ 16 + b1.toNat * 2 ^ 8 + b2.toNat)
  rw [show b0.toNat * 2 ^ 24 = 2 ^ 24 * b0.toNat by ring, ← e1,
    show 2 ^ 24 * b0.toNat + b1.toNat * 2 ^ 16 = 2 ^ 16 * (b0.toNat * 2 ^ 8 + b1.toNat) by ring, ← e2,
    show 2 ^ 16 * (b0.toNat * 2 ^ 8 + b1.toNat) + b2.toNat * 2 ^ 8 =
      2 ^ 8 * (b0.toNat * 2 ^ 16 + b1.toNat * 2 ^ 8 + b2.toNat) by ring, ← e3]

/-- One byte of a word: the word shifted down, modulo 256. -/
theorem toNat_wordByte (n : Word) (d : Nat) :
    (((n >>> d) &&& 0xFF#32).setWidth 8 : Byte).toNat = n.toNat / 2 ^ d % 256 := by
  have : (0xFF#32).toNat = 2 ^ 8 - 1 := by decide
  rw [BitVec.toNat_setWidth, BitVec.toNat_and, this, Nat.and_two_pow_sub_one_eq_mod,
    BitVec.toNat_ushiftRight, Nat.shiftRight_eq_div_pow]
  omega

theorem toNat_intToBytes (n : Word) :
    (intToBytes n).b0.toNat = n.toNat / 2 ^ 24 % 256 ∧
    (intToBytes n).b1.toNat = n.toNat / 2 ^ 16 % 256 ∧
    (intToBytes n).b2.toNat = n.toNat / 2 ^ 8 % 256 ∧
    (intToBytes n).b3.toNat = n.toNat % 256 := by
  refine ⟨toNat_wordByte n 24, toNat_wordByte n 16, toNat_wordByte n 8, ?_⟩
  simpa [intToBytes] using toNat_wordByte n 0

/-- `I2B` loses nothing: the four bytes weigh what the number was (R132). -/
theorem bytesToInt_intToBytes (n : Word) : bytesToInt (intToBytes n) = n := by
  obtain ⟨h0, h1, h2, h3⟩ := toNat_intToBytes n
  have hn := n.isLt
  apply BitVec.eq_of_toNat_eq
  rw [toNat_bytesToInt, h0, h1, h2, h3]
  omega

/-- The four bytes of a header assemble to its number, bit by bit as well (R119 b, R137). -/
theorem bitsToInt_header (b : Bytes4) : bitsToInt (bytesToBits b.toList) = bytesToInt b := by
  apply BitVec.eq_of_toNat_eq
  rw [toNat_bitsToInt (by simp), toNat_bytesToInt]
  simp only [Bytes4.toList, bytesToBits, List.flatMap_cons, List.flatMap_nil, List.append_nil,
    bitsNat_append, bitsNat_byteBits, List.length_append, length_byteBits]
  ring

/-! ### Capacity arithmetic and grouping -/

theorem divCeil_mul_ge (a : Nat) {b : Nat} (hb : 0 < b) : a ≤ divCeil a b * b := by
  have h1 := Nat.div_add_mod (a + b - 1) b
  have h2 := Nat.mod_lt (a + b - 1) hb
  rw [Nat.mul_comm] at h1
  unfold divCeil
  omega

/-- `ceil(a / b)` is the least n with n×b ≥ a (R12). -/
theorem divCeil_le_iff (a n : Nat) {b : Nat} (hb : 0 < b) : divCeil a b ≤ n ↔ a ≤ n * b := by
  constructor
  · intro h
    exact (divCeil_mul_ge a hb).trans (Nat.mul_le_mul_right b h)
  · intro h
    unfold divCeil
    have : (a + b - 1) / b < n + 1 := by
      rw [Nat.div_lt_iff_lt_mul hb, Nat.add_mul]
      omega
    omega

theorem divCeil_mul_lt (a : Nat) {b : Nat} (hb : 0 < b) : divCeil a b * b < a + b := by
  have := Nat.div_mul_le_self (a + b - 1) b
  unfold divCeil
  omega

@[simp] theorem length_pieces (n c : Nat) (l : List Bit) : (pieces n c l).length = n := by
  induction n generalizing l with
  | zero => rfl
  | succ n ih => simp [pieces, ih]

/-- Piece i of a list long enough holds elements i×c to i×c + c − 1. -/
theorem getElem_pieces {n c : Nat} {l : List Bit} {i : Nat} (hi : i < (pieces n c l).length) :
    (pieces n c l)[i] = (l.drop (i * c)).take c := by
  induction n generalizing l i with
  | zero => simp at hi
  | succ n ih =>
    cases i with
    | zero => simp [pieces]
    | succ i =>
      simp only [pieces, List.getElem_cons_succ]
      rw [ih (by simpa using hi), List.drop_drop]
      congr 2
      ring

theorem length_padded {c : Nat} (hc : 0 < c) (l : List Bit) :
    (padded c l).length = divCeil l.length c * c := by
  have := divCeil_mul_ge l.length hc
  simp [padded]; omega

@[simp] theorem length_group (c : Nat) (l : List Bit) : (group c l).length = divCeil l.length c := by
  simp [group]

/-- Every group has exactly C lanes (R145). -/
theorem length_of_mem_group {c : Nat} (hc : 0 < c) {l g : List Bit} (hg : g ∈ group c l) :
    g.length = c := by
  obtain ⟨i, hi, rfl⟩ := List.getElem_of_mem hg
  have hi' : i < divCeil l.length c := by simpa using hi
  simp only [group, getElem_pieces, List.length_take, List.length_drop, length_padded hc]
  have : (i + 1) * c ≤ divCeil l.length c * c := Nat.mul_le_mul_right c hi'
  rw [Nat.add_mul] at this
  omega

/-- The groups in order are the padded sequence (R145). -/
theorem flatten_pieces (n c : Nat) (l : List Bit) (h : l.length = n * c) :
    (pieces n c l).flatten = l := by
  induction n generalizing l with
  | zero => simp at h; simp [pieces, h]
  | succ n ih =>
    have : (l.drop c).length = n * c := by simp [h, Nat.add_mul]
    simp [pieces, ih _ this]

theorem flatten_group {c : Nat} (hc : 0 < c) (l : List Bit) : (group c l).flatten = padded c l :=
  flatten_pieces _ _ _ (length_padded hc l)

end Sys2Proof.Machine
end

