-- ==== Sys2Proof/Laws/State.lean ====
section
/-! SUPPORT. One lemma for each field of State under each named update, and for each derived quantity
(`00_scope.md` R15), so that no proof unfolds a record update. All hold by rfl. -/

namespace Sys2Proof.Machine

section
variable (s : State)


/-! ### `setPix` -/

@[simp] theorem State.setPix_w (m : Memory) : (s.setPix m).w = s.w := rfl
@[simp] theorem State.setPix_h (m : Memory) : (s.setPix m).h = s.h := rfl
@[simp] theorem State.setPix_c (m : Memory) : (s.setPix m).c = s.c := rfl
@[simp] theorem State.setPix_pix (m : Memory) : (s.setPix m).pix = m := rfl
@[simp] theorem State.setPix_inp (m : Memory) : (s.setPix m).inp = s.inp := rfl
@[simp] theorem State.setPix_out (m : Memory) : (s.setPix m).out = s.out := rfl
@[simp] theorem State.setPix_strm (m : Memory) : (s.setPix m).strm = s.strm := rfl
@[simp] theorem State.setPix_status (m : Memory) : (s.setPix m).status = s.status := rfl
@[simp] theorem State.setPix_res (m : Memory) : (s.setPix m).res = s.res := rfl
@[simp] theorem State.setPix_acc (m : Memory) : (s.setPix m).acc = s.acc := rfl
@[simp] theorem State.setPix_len (m : Memory) : (s.setPix m).len = s.len := rfl
@[simp] theorem State.setPix_hdr (m : Memory) : (s.setPix m).hdr = s.hdr := rfl
@[simp] theorem State.setPix_pending (m : Memory) : (s.setPix m).pending = s.pending := rfl
@[simp] theorem State.setPix_accesses (m : Memory) : (s.setPix m).accesses = s.accesses := rfl
@[simp] theorem State.setPix_npix (m : Memory) : (s.setPix m).npix = s.npix := rfl
@[simp] theorem State.setPix_cap (m : Memory) : (s.setPix m).cap = s.cap := rfl
@[simp] theorem State.setPix_plen (m : Memory) : (s.setPix m).plen = s.plen := rfl
@[simp] theorem State.setPix_pixelBase (m : Memory) (i : Nat) : (s.setPix m).pixelBase i = s.pixelBase i := rfl

/-! ### `setOut` -/

@[simp] theorem State.setOut_w (o : Option ByteSeq) : (s.setOut o).w = s.w := rfl
@[simp] theorem State.setOut_h (o : Option ByteSeq) : (s.setOut o).h = s.h := rfl
@[simp] theorem State.setOut_c (o : Option ByteSeq) : (s.setOut o).c = s.c := rfl
@[simp] theorem State.setOut_pix (o : Option ByteSeq) : (s.setOut o).pix = s.pix := rfl
@[simp] theorem State.setOut_inp (o : Option ByteSeq) : (s.setOut o).inp = s.inp := rfl
@[simp] theorem State.setOut_out (o : Option ByteSeq) : (s.setOut o).out = o := rfl
@[simp] theorem State.setOut_strm (o : Option ByteSeq) : (s.setOut o).strm = s.strm := rfl
@[simp] theorem State.setOut_status (o : Option ByteSeq) : (s.setOut o).status = s.status := rfl
@[simp] theorem State.setOut_res (o : Option ByteSeq) : (s.setOut o).res = s.res := rfl
@[simp] theorem State.setOut_acc (o : Option ByteSeq) : (s.setOut o).acc = s.acc := rfl
@[simp] theorem State.setOut_len (o : Option ByteSeq) : (s.setOut o).len = s.len := rfl
@[simp] theorem State.setOut_hdr (o : Option ByteSeq) : (s.setOut o).hdr = s.hdr := rfl
@[simp] theorem State.setOut_pending (o : Option ByteSeq) : (s.setOut o).pending = s.pending := rfl
@[simp] theorem State.setOut_accesses (o : Option ByteSeq) : (s.setOut o).accesses = s.accesses := rfl
@[simp] theorem State.setOut_npix (o : Option ByteSeq) : (s.setOut o).npix = s.npix := rfl
@[simp] theorem State.setOut_cap (o : Option ByteSeq) : (s.setOut o).cap = s.cap := rfl
@[simp] theorem State.setOut_plen (o : Option ByteSeq) : (s.setOut o).plen = s.plen := rfl
@[simp] theorem State.setOut_pixelBase (o : Option ByteSeq) (i : Nat) : (s.setOut o).pixelBase i = s.pixelBase i := rfl
@[simp] theorem State.setOut_pixel (o : Option ByteSeq) (i : Nat) : (s.setOut o).pixel i = s.pixel i := rfl

/-! ### `setStrm` -/

@[simp] theorem State.setStrm_w (x : Stream) : (s.setStrm x).w = s.w := rfl
@[simp] theorem State.setStrm_h (x : Stream) : (s.setStrm x).h = s.h := rfl
@[simp] theorem State.setStrm_c (x : Stream) : (s.setStrm x).c = s.c := rfl
@[simp] theorem State.setStrm_pix (x : Stream) : (s.setStrm x).pix = s.pix := rfl
@[simp] theorem State.setStrm_inp (x : Stream) : (s.setStrm x).inp = s.inp := rfl
@[simp] theorem State.setStrm_out (x : Stream) : (s.setStrm x).out = s.out := rfl
@[simp] theorem State.setStrm_strm (x : Stream) : (s.setStrm x).strm = x := rfl
@[simp] theorem State.setStrm_status (x : Stream) : (s.setStrm x).status = s.status := rfl
@[simp] theorem State.setStrm_res (x : Stream) : (s.setStrm x).res = s.res := rfl
@[simp] theorem State.setStrm_acc (x : Stream) : (s.setStrm x).acc = s.acc := rfl
@[simp] theorem State.setStrm_len (x : Stream) : (s.setStrm x).len = s.len := rfl
@[simp] theorem State.setStrm_hdr (x : Stream) : (s.setStrm x).hdr = s.hdr := rfl
@[simp] theorem State.setStrm_pending (x : Stream) : (s.setStrm x).pending = s.pending := rfl
@[simp] theorem State.setStrm_accesses (x : Stream) : (s.setStrm x).accesses = s.accesses := rfl
@[simp] theorem State.setStrm_npix (x : Stream) : (s.setStrm x).npix = s.npix := rfl
@[simp] theorem State.setStrm_cap (x : Stream) : (s.setStrm x).cap = s.cap := rfl
@[simp] theorem State.setStrm_plen (x : Stream) : (s.setStrm x).plen = s.plen := rfl
@[simp] theorem State.setStrm_pixelBase (x : Stream) (i : Nat) : (s.setStrm x).pixelBase i = s.pixelBase i := rfl
@[simp] theorem State.setStrm_pixel (x : Stream) (i : Nat) : (s.setStrm x).pixel i = s.pixel i := rfl

/-! ### `setAcc` -/

@[simp] theorem State.setAcc_w (a : Option Word) : (s.setAcc a).w = s.w := rfl
@[simp] theorem State.setAcc_h (a : Option Word) : (s.setAcc a).h = s.h := rfl
@[simp] theorem State.setAcc_c (a : Option Word) : (s.setAcc a).c = s.c := rfl
@[simp] theorem State.setAcc_pix (a : Option Word) : (s.setAcc a).pix = s.pix := rfl
@[simp] theorem State.setAcc_inp (a : Option Word) : (s.setAcc a).inp = s.inp := rfl
@[simp] theorem State.setAcc_out (a : Option Word) : (s.setAcc a).out = s.out := rfl
@[simp] theorem State.setAcc_strm (a : Option Word) : (s.setAcc a).strm = s.strm := rfl
@[simp] theorem State.setAcc_status (a : Option Word) : (s.setAcc a).status = s.status := rfl
@[simp] theorem State.setAcc_res (a : Option Word) : (s.setAcc a).res = s.res := rfl
@[simp] theorem State.setAcc_acc (a : Option Word) : (s.setAcc a).acc = a := rfl
@[simp] theorem State.setAcc_len (a : Option Word) : (s.setAcc a).len = s.len := rfl
@[simp] theorem State.setAcc_hdr (a : Option Word) : (s.setAcc a).hdr = s.hdr := rfl
@[simp] theorem State.setAcc_pending (a : Option Word) : (s.setAcc a).pending = s.pending := rfl
@[simp] theorem State.setAcc_accesses (a : Option Word) : (s.setAcc a).accesses = s.accesses := rfl
@[simp] theorem State.setAcc_npix (a : Option Word) : (s.setAcc a).npix = s.npix := rfl
@[simp] theorem State.setAcc_cap (a : Option Word) : (s.setAcc a).cap = s.cap := rfl
@[simp] theorem State.setAcc_plen (a : Option Word) : (s.setAcc a).plen = s.plen := rfl
@[simp] theorem State.setAcc_pixelBase (a : Option Word) (i : Nat) : (s.setAcc a).pixelBase i = s.pixelBase i := rfl
@[simp] theorem State.setAcc_pixel (a : Option Word) (i : Nat) : (s.setAcc a).pixel i = s.pixel i := rfl

/-! ### `setLen` -/

@[simp] theorem State.setLen_w (l : Option Word) : (s.setLen l).w = s.w := rfl
@[simp] theorem State.setLen_h (l : Option Word) : (s.setLen l).h = s.h := rfl
@[simp] theorem State.setLen_c (l : Option Word) : (s.setLen l).c = s.c := rfl
@[simp] theorem State.setLen_pix (l : Option Word) : (s.setLen l).pix = s.pix := rfl
@[simp] theorem State.setLen_inp (l : Option Word) : (s.setLen l).inp = s.inp := rfl
@[simp] theorem State.setLen_out (l : Option Word) : (s.setLen l).out = s.out := rfl
@[simp] theorem State.setLen_strm (l : Option Word) : (s.setLen l).strm = s.strm := rfl
@[simp] theorem State.setLen_status (l : Option Word) : (s.setLen l).status = s.status := rfl
@[simp] theorem State.setLen_res (l : Option Word) : (s.setLen l).res = s.res := rfl
@[simp] theorem State.setLen_acc (l : Option Word) : (s.setLen l).acc = s.acc := rfl
@[simp] theorem State.setLen_len (l : Option Word) : (s.setLen l).len = l := rfl
@[simp] theorem State.setLen_hdr (l : Option Word) : (s.setLen l).hdr = s.hdr := rfl
@[simp] theorem State.setLen_pending (l : Option Word) : (s.setLen l).pending = s.pending := rfl
@[simp] theorem State.setLen_accesses (l : Option Word) : (s.setLen l).accesses = s.accesses := rfl
@[simp] theorem State.setLen_npix (l : Option Word) : (s.setLen l).npix = s.npix := rfl
@[simp] theorem State.setLen_cap (l : Option Word) : (s.setLen l).cap = s.cap := rfl
@[simp] theorem State.setLen_plen (l : Option Word) : (s.setLen l).plen = s.plen := rfl
@[simp] theorem State.setLen_pixelBase (l : Option Word) (i : Nat) : (s.setLen l).pixelBase i = s.pixelBase i := rfl
@[simp] theorem State.setLen_pixel (l : Option Word) (i : Nat) : (s.setLen l).pixel i = s.pixel i := rfl

/-! ### `setHdr` -/

@[simp] theorem State.setHdr_w (b : Option Bytes4) : (s.setHdr b).w = s.w := rfl
@[simp] theorem State.setHdr_h (b : Option Bytes4) : (s.setHdr b).h = s.h := rfl
@[simp] theorem State.setHdr_c (b : Option Bytes4) : (s.setHdr b).c = s.c := rfl
@[simp] theorem State.setHdr_pix (b : Option Bytes4) : (s.setHdr b).pix = s.pix := rfl
@[simp] theorem State.setHdr_inp (b : Option Bytes4) : (s.setHdr b).inp = s.inp := rfl
@[simp] theorem State.setHdr_out (b : Option Bytes4) : (s.setHdr b).out = s.out := rfl
@[simp] theorem State.setHdr_strm (b : Option Bytes4) : (s.setHdr b).strm = s.strm := rfl
@[simp] theorem State.setHdr_status (b : Option Bytes4) : (s.setHdr b).status = s.status := rfl
@[simp] theorem State.setHdr_res (b : Option Bytes4) : (s.setHdr b).res = s.res := rfl
@[simp] theorem State.setHdr_acc (b : Option Bytes4) : (s.setHdr b).acc = s.acc := rfl
@[simp] theorem State.setHdr_len (b : Option Bytes4) : (s.setHdr b).len = s.len := rfl
@[simp] theorem State.setHdr_hdr (b : Option Bytes4) : (s.setHdr b).hdr = b := rfl
@[simp] theorem State.setHdr_pending (b : Option Bytes4) : (s.setHdr b).pending = s.pending := rfl
@[simp] theorem State.setHdr_accesses (b : Option Bytes4) : (s.setHdr b).accesses = s.accesses := rfl
@[simp] theorem State.setHdr_npix (b : Option Bytes4) : (s.setHdr b).npix = s.npix := rfl
@[simp] theorem State.setHdr_cap (b : Option Bytes4) : (s.setHdr b).cap = s.cap := rfl
@[simp] theorem State.setHdr_plen (b : Option Bytes4) : (s.setHdr b).plen = s.plen := rfl
@[simp] theorem State.setHdr_pixelBase (b : Option Bytes4) (i : Nat) : (s.setHdr b).pixelBase i = s.pixelBase i := rfl
@[simp] theorem State.setHdr_pixel (b : Option Bytes4) (i : Nat) : (s.setHdr b).pixel i = s.pixel i := rfl

/-! ### `logAccess` -/

@[simp] theorem State.logAccess_w (a : Access) : (s.logAccess a).w = s.w := rfl
@[simp] theorem State.logAccess_h (a : Access) : (s.logAccess a).h = s.h := rfl
@[simp] theorem State.logAccess_c (a : Access) : (s.logAccess a).c = s.c := rfl
@[simp] theorem State.logAccess_pix (a : Access) : (s.logAccess a).pix = s.pix := rfl
@[simp] theorem State.logAccess_inp (a : Access) : (s.logAccess a).inp = s.inp := rfl
@[simp] theorem State.logAccess_out (a : Access) : (s.logAccess a).out = s.out := rfl
@[simp] theorem State.logAccess_strm (a : Access) : (s.logAccess a).strm = s.strm := rfl
@[simp] theorem State.logAccess_status (a : Access) : (s.logAccess a).status = s.status := rfl
@[simp] theorem State.logAccess_res (a : Access) : (s.logAccess a).res = s.res := rfl
@[simp] theorem State.logAccess_acc (a : Access) : (s.logAccess a).acc = s.acc := rfl
@[simp] theorem State.logAccess_len (a : Access) : (s.logAccess a).len = s.len := rfl
@[simp] theorem State.logAccess_hdr (a : Access) : (s.logAccess a).hdr = s.hdr := rfl
@[simp] theorem State.logAccess_pending (a : Access) : (s.logAccess a).pending = s.pending := rfl
@[simp] theorem State.logAccess_accesses (a : Access) : (s.logAccess a).accesses = s.accesses ++ [a] := rfl
@[simp] theorem State.logAccess_npix (a : Access) : (s.logAccess a).npix = s.npix := rfl
@[simp] theorem State.logAccess_cap (a : Access) : (s.logAccess a).cap = s.cap := rfl
@[simp] theorem State.logAccess_plen (a : Access) : (s.logAccess a).plen = s.plen := rfl
@[simp] theorem State.logAccess_pixelBase (a : Access) (i : Nat) : (s.logAccess a).pixelBase i = s.pixelBase i := rfl
@[simp] theorem State.logAccess_pixel (a : Access) (i : Nat) : (s.logAccess a).pixel i = s.pixel i := rfl

/-! ### `finish` -/

@[simp] theorem State.finish_w (v : Option ResVal) : (s.finish v).w = s.w := rfl
@[simp] theorem State.finish_h (v : Option ResVal) : (s.finish v).h = s.h := rfl
@[simp] theorem State.finish_c (v : Option ResVal) : (s.finish v).c = s.c := rfl
@[simp] theorem State.finish_pix (v : Option ResVal) : (s.finish v).pix = s.pix := rfl
@[simp] theorem State.finish_inp (v : Option ResVal) : (s.finish v).inp = s.inp := rfl
@[simp] theorem State.finish_out (v : Option ResVal) : (s.finish v).out = s.out := rfl
@[simp] theorem State.finish_strm (v : Option ResVal) : (s.finish v).strm = s.strm := rfl
@[simp] theorem State.finish_status (v : Option ResVal) : (s.finish v).status = .ok := rfl
@[simp] theorem State.finish_res (v : Option ResVal) : (s.finish v).res = v := rfl
@[simp] theorem State.finish_acc (v : Option ResVal) : (s.finish v).acc = none := rfl
@[simp] theorem State.finish_len (v : Option ResVal) : (s.finish v).len = none := rfl
@[simp] theorem State.finish_hdr (v : Option ResVal) : (s.finish v).hdr = none := rfl
@[simp] theorem State.finish_pending (v : Option ResVal) : (s.finish v).pending = s.pending := rfl
@[simp] theorem State.finish_accesses (v : Option ResVal) : (s.finish v).accesses = s.accesses := rfl
@[simp] theorem State.finish_npix (v : Option ResVal) : (s.finish v).npix = s.npix := rfl
@[simp] theorem State.finish_cap (v : Option ResVal) : (s.finish v).cap = s.cap := rfl
@[simp] theorem State.finish_plen (v : Option ResVal) : (s.finish v).plen = s.plen := rfl
@[simp] theorem State.finish_pixelBase (v : Option ResVal) (i : Nat) : (s.finish v).pixelBase i = s.pixelBase i := rfl
@[simp] theorem State.finish_pixel (v : Option ResVal) (i : Nat) : (s.finish v).pixel i = s.pixel i := rfl

/-! ### `raise` -/

@[simp] theorem State.raise_w (k : Status) : (s.raise k).w = s.w := rfl
@[simp] theorem State.raise_h (k : Status) : (s.raise k).h = s.h := rfl
@[simp] theorem State.raise_c (k : Status) : (s.raise k).c = s.c := rfl
@[simp] theorem State.raise_pix (k : Status) : (s.raise k).pix = s.pix := rfl
@[simp] theorem State.raise_inp (k : Status) : (s.raise k).inp = s.inp := rfl
@[simp] theorem State.raise_out (k : Status) : (s.raise k).out = s.out := rfl
@[simp] theorem State.raise_strm (k : Status) : (s.raise k).strm = s.strm := rfl
@[simp] theorem State.raise_status (k : Status) : (s.raise k).status = k := rfl
@[simp] theorem State.raise_res (k : Status) : (s.raise k).res = none := rfl
@[simp] theorem State.raise_acc (k : Status) : (s.raise k).acc = none := rfl
@[simp] theorem State.raise_len (k : Status) : (s.raise k).len = none := rfl
@[simp] theorem State.raise_hdr (k : Status) : (s.raise k).hdr = none := rfl
@[simp] theorem State.raise_pending (k : Status) : (s.raise k).pending = s.pending := rfl
@[simp] theorem State.raise_accesses (k : Status) : (s.raise k).accesses = s.accesses := rfl
@[simp] theorem State.raise_npix (k : Status) : (s.raise k).npix = s.npix := rfl
@[simp] theorem State.raise_cap (k : Status) : (s.raise k).cap = s.cap := rfl
@[simp] theorem State.raise_plen (k : Status) : (s.raise k).plen = s.plen := rfl
@[simp] theorem State.raise_pixelBase (k : Status) (i : Nat) : (s.raise k).pixelBase i = s.pixelBase i := rfl
@[simp] theorem State.raise_pixel (k : Status) (i : Nat) : (s.raise k).pixel i = s.pixel i := rfl

/-! ### `raiseExtract` -/

@[simp] theorem State.raiseExtract_w (k : Status) : (s.raiseExtract k).w = s.w := rfl
@[simp] theorem State.raiseExtract_h (k : Status) : (s.raiseExtract k).h = s.h := rfl
@[simp] theorem State.raiseExtract_c (k : Status) : (s.raiseExtract k).c = s.c := rfl
@[simp] theorem State.raiseExtract_pix (k : Status) : (s.raiseExtract k).pix = s.pix := rfl
@[simp] theorem State.raiseExtract_inp (k : Status) : (s.raiseExtract k).inp = s.inp := rfl
@[simp] theorem State.raiseExtract_out (k : Status) : (s.raiseExtract k).out = none := rfl
@[simp] theorem State.raiseExtract_strm (k : Status) : (s.raiseExtract k).strm = .closed := rfl
@[simp] theorem State.raiseExtract_status (k : Status) : (s.raiseExtract k).status = k := rfl
@[simp] theorem State.raiseExtract_res (k : Status) : (s.raiseExtract k).res = none := rfl
@[simp] theorem State.raiseExtract_acc (k : Status) : (s.raiseExtract k).acc = none := rfl
@[simp] theorem State.raiseExtract_len (k : Status) : (s.raiseExtract k).len = none := rfl
@[simp] theorem State.raiseExtract_hdr (k : Status) : (s.raiseExtract k).hdr = none := rfl
@[simp] theorem State.raiseExtract_pending (k : Status) : (s.raiseExtract k).pending = s.pending := rfl
@[simp] theorem State.raiseExtract_accesses (k : Status) : (s.raiseExtract k).accesses = s.accesses := rfl
@[simp] theorem State.raiseExtract_npix (k : Status) : (s.raiseExtract k).npix = s.npix := rfl
@[simp] theorem State.raiseExtract_cap (k : Status) : (s.raiseExtract k).cap = s.cap := rfl
@[simp] theorem State.raiseExtract_plen (k : Status) : (s.raiseExtract k).plen = s.plen := rfl
@[simp] theorem State.raiseExtract_pixelBase (k : Status) (i : Nat) : (s.raiseExtract k).pixelBase i = s.pixelBase i := rfl
@[simp] theorem State.raiseExtract_pixel (k : Status) (i : Nat) : (s.raiseExtract k).pixel i = s.pixel i := rfl

/-! ### `refuse` -/

@[simp] theorem State.refuse_w : s.refuse.w = s.w := rfl
@[simp] theorem State.refuse_h : s.refuse.h = s.h := rfl
@[simp] theorem State.refuse_c : s.refuse.c = s.c := rfl
@[simp] theorem State.refuse_pix : s.refuse.pix = s.pix := rfl
@[simp] theorem State.refuse_inp : s.refuse.inp = s.inp := rfl
@[simp] theorem State.refuse_out : s.refuse.out = s.out := rfl
@[simp] theorem State.refuse_strm : s.refuse.strm = s.strm := rfl
@[simp] theorem State.refuse_status : s.refuse.status = .illegalOp := rfl
@[simp] theorem State.refuse_res : s.refuse.res = none := rfl
@[simp] theorem State.refuse_acc : s.refuse.acc = s.acc := rfl
@[simp] theorem State.refuse_len : s.refuse.len = s.len := rfl
@[simp] theorem State.refuse_hdr : s.refuse.hdr = s.hdr := rfl
@[simp] theorem State.refuse_pending : s.refuse.pending = s.pending := rfl
@[simp] theorem State.refuse_accesses : s.refuse.accesses = s.accesses := rfl
@[simp] theorem State.refuse_npix : s.refuse.npix = s.npix := rfl
@[simp] theorem State.refuse_cap : s.refuse.cap = s.cap := rfl
@[simp] theorem State.refuse_plen : s.refuse.plen = s.plen := rfl
@[simp] theorem State.refuse_pixelBase (i : Nat) : s.refuse.pixelBase i = s.pixelBase i := rfl
@[simp] theorem State.refuse_pixel (i : Nat) : s.refuse.pixel i = s.pixel i := rfl

/-! ### `beginCommand` -/

@[simp] theorem State.beginCommand_w : s.beginCommand.w = s.w := rfl
@[simp] theorem State.beginCommand_h : s.beginCommand.h = s.h := rfl
@[simp] theorem State.beginCommand_c : s.beginCommand.c = s.c := rfl
@[simp] theorem State.beginCommand_pix : s.beginCommand.pix = s.pix := rfl
@[simp] theorem State.beginCommand_inp : s.beginCommand.inp = s.inp := rfl
@[simp] theorem State.beginCommand_out : s.beginCommand.out = s.out := rfl
@[simp] theorem State.beginCommand_strm : s.beginCommand.strm = s.strm := rfl
@[simp] theorem State.beginCommand_status : s.beginCommand.status = s.status := rfl
@[simp] theorem State.beginCommand_res : s.beginCommand.res = s.res := rfl
@[simp] theorem State.beginCommand_acc : s.beginCommand.acc = s.acc := rfl
@[simp] theorem State.beginCommand_len : s.beginCommand.len = s.len := rfl
@[simp] theorem State.beginCommand_hdr : s.beginCommand.hdr = s.hdr := rfl
@[simp] theorem State.beginCommand_pending : s.beginCommand.pending = s.pending := rfl
@[simp] theorem State.beginCommand_accesses : s.beginCommand.accesses = [] := rfl
@[simp] theorem State.beginCommand_npix : s.beginCommand.npix = s.npix := rfl
@[simp] theorem State.beginCommand_cap : s.beginCommand.cap = s.cap := rfl
@[simp] theorem State.beginCommand_plen : s.beginCommand.plen = s.plen := rfl
@[simp] theorem State.beginCommand_pixelBase (i : Nat) : s.beginCommand.pixelBase i = s.pixelBase i := rfl
@[simp] theorem State.beginCommand_pixel (i : Nat) : s.beginCommand.pixel i = s.pixel i := rfl

/-! ### `pop` -/

@[simp] theorem State.pop_w (r : List HostAction) : (s.pop r).w = s.w := rfl
@[simp] theorem State.pop_h (r : List HostAction) : (s.pop r).h = s.h := rfl
@[simp] theorem State.pop_c (r : List HostAction) : (s.pop r).c = s.c := rfl
@[simp] theorem State.pop_pix (r : List HostAction) : (s.pop r).pix = s.pix := rfl
@[simp] theorem State.pop_inp (r : List HostAction) : (s.pop r).inp = s.inp := rfl
@[simp] theorem State.pop_out (r : List HostAction) : (s.pop r).out = s.out := rfl
@[simp] theorem State.pop_strm (r : List HostAction) : (s.pop r).strm = s.strm := rfl
@[simp] theorem State.pop_status (r : List HostAction) : (s.pop r).status = s.status := rfl
@[simp] theorem State.pop_res (r : List HostAction) : (s.pop r).res = s.res := rfl
@[simp] theorem State.pop_acc (r : List HostAction) : (s.pop r).acc = s.acc := rfl
@[simp] theorem State.pop_len (r : List HostAction) : (s.pop r).len = s.len := rfl
@[simp] theorem State.pop_hdr (r : List HostAction) : (s.pop r).hdr = s.hdr := rfl
@[simp] theorem State.pop_pending (r : List HostAction) : (s.pop r).pending = r := rfl
@[simp] theorem State.pop_accesses (r : List HostAction) : (s.pop r).accesses = s.accesses := rfl
@[simp] theorem State.pop_npix (r : List HostAction) : (s.pop r).npix = s.npix := rfl
@[simp] theorem State.pop_cap (r : List HostAction) : (s.pop r).cap = s.cap := rfl
@[simp] theorem State.pop_plen (r : List HostAction) : (s.pop r).plen = s.plen := rfl
@[simp] theorem State.pop_pixelBase (r : List HostAction) (i : Nat) : (s.pop r).pixelBase i = s.pixelBase i := rfl
@[simp] theorem State.pop_pixel (r : List HostAction) (i : Nat) : (s.pop r).pixel i = s.pixel i := rfl

end

end Sys2Proof.Machine
end

