-- ==== Sys2Proof/Laws/Ops.lean ====
section
/-! SUPPORT. One lemma for each shared operation that says all it can do; a proof cites it and does not
unfold the operation. -/

namespace Sys2Proof.Machine

/-! ### Recording several accesses -/

/-- Record several accesses, in order. -/
def State.logAll (l : List Access) (s : State) : State := { s with accesses := s.accesses ++ l }

@[simp] theorem State.logAll_nil (s : State) : s.logAll [] = s := by
  simp [State.logAll]

@[simp] theorem State.logAll_logAll (k l : List Access) (s : State) :
    (s.logAll k).logAll l = s.logAll (k ++ l) := by
  simp [State.logAll]

theorem State.logAccess_eq (a : Access) (s : State) : s.logAccess a = s.logAll [a] := rfl

@[simp] theorem State.logAll_w (l : List Access) (s : State) : (s.logAll l).w = s.w := rfl
@[simp] theorem State.logAll_h (l : List Access) (s : State) : (s.logAll l).h = s.h := rfl
@[simp] theorem State.logAll_c (l : List Access) (s : State) : (s.logAll l).c = s.c := rfl
@[simp] theorem State.logAll_pix (l : List Access) (s : State) : (s.logAll l).pix = s.pix := rfl
@[simp] theorem State.logAll_inp (l : List Access) (s : State) : (s.logAll l).inp = s.inp := rfl
@[simp] theorem State.logAll_out (l : List Access) (s : State) : (s.logAll l).out = s.out := rfl
@[simp] theorem State.logAll_strm (l : List Access) (s : State) : (s.logAll l).strm = s.strm := rfl
@[simp] theorem State.logAll_status (l : List Access) (s : State) : (s.logAll l).status = s.status := rfl
@[simp] theorem State.logAll_res (l : List Access) (s : State) : (s.logAll l).res = s.res := rfl
@[simp] theorem State.logAll_acc (l : List Access) (s : State) : (s.logAll l).acc = s.acc := rfl
@[simp] theorem State.logAll_len (l : List Access) (s : State) : (s.logAll l).len = s.len := rfl
@[simp] theorem State.logAll_hdr (l : List Access) (s : State) : (s.logAll l).hdr = s.hdr := rfl
@[simp] theorem State.logAll_pending (l : List Access) (s : State) :
    (s.logAll l).pending = s.pending := rfl
@[simp] theorem State.logAll_accesses (l : List Access) (s : State) :
    (s.logAll l).accesses = s.accesses ++ l := rfl
@[simp] theorem State.logAll_npix (l : List Access) (s : State) : (s.logAll l).npix = s.npix := rfl
@[simp] theorem State.logAll_cap (l : List Access) (s : State) : (s.logAll l).cap = s.cap := rfl
@[simp] theorem State.logAll_plen (l : List Access) (s : State) : (s.logAll l).plen = s.plen := rfl
@[simp] theorem State.logAll_pixelBase (l : List Access) (s : State) (i : Nat) :
    (s.logAll l).pixelBase i = s.pixelBase i := rfl
@[simp] theorem State.logAll_pixel (l : List Access) (s : State) (i : Nat) :
    (s.logAll l).pixel i = s.pixel i := rfl

/-! ### Indices -/

theorem State.cap_eq (s : State) : s.cap = s.npix * s.c := rfl

/-- A channel index below CAP names a channel of an existing pixel (R56, R57). -/
theorem State.channel_index (s : State) {k : Nat} (h : k < s.cap) :
    0 < s.c ∧ k / s.c < s.npix ∧ k % s.c < s.c := by
  rw [State.cap_eq] at h
  have hc : 0 < s.c := Nat.pos_of_ne_zero fun e => by simp [e] at h
  exact ⟨hc, Nat.div_lt_of_lt_mul (by rwa [Nat.mul_comm]), Nat.mod_lt _ hc⟩

/-- The channels of an existing pixel lie below CAP. -/
theorem State.pixel_end_le (s : State) {i : Nat} (h : i < s.npix) : s.pixelBase i + s.c ≤ s.cap := by
  have : (i + 1) * s.c ≤ s.npix * s.c := Nat.mul_le_mul_right s.c h
  rw [Nat.add_mul, Nat.one_mul] at this
  exact this

@[simp] theorem State.length_pixel (s : State) (i : Nat) : (s.pixel i).length = s.c := by
  simp [State.pixel]

theorem State.getElem_pixel (s : State) (i : Nat) {l : Nat} (h : l < (s.pixel i).length) :
    (s.pixel i)[l] = s.pix.read (s.pixelBase i + l) := by
  simp [State.pixel]

/-! ### Access primitives -/

theorem pixRead_ok {i : Nat} {s : State} (h : i < s.npix) :
    pixRead i s = .ok (s.pixel i, s.logAll [.pixRead i]) := if_pos h

theorem pixWrite_ok {i : Nat} {t : List Byte} {s : State} (h : i < s.npix) (ht : t.length = s.c) :
    pixWrite i t s =
      .ok ((s.setPix (s.pix.writeRun (s.pixelBase i) t)).logAll [.pixWrite i]) := if_pos ⟨h, ht⟩

theorem memRead_ok {k : Nat} {s : State} (h : k < s.cap) :
    memRead k s = .ok (s.pix.read k, s.logAll [.pixRead (k / s.c)]) := by
  obtain ⟨hc, hi, hl⟩ := s.channel_index h
  have hl' : k % s.c < (s.pixel (k / s.c)).length := by simpa using hl
  have hk : s.pixelBase (k / s.c) + k % s.c = k := by
    rw [State.pixelBase, Nat.mul_comm]; exact Nat.div_add_mod k s.c
  simp only [memRead, pixRead_ok hi, List.getElem?_eq_getElem hl', State.getElem_pixel, hk]

theorem inRead_ok {j : Nat} {s : State} (h : j < s.plen) :
    inRead j s = .ok (s.inp.cells.read j, s.logAll [.inRead j]) := if_pos h

theorem inReadRun_ok {n j : Nat} {s : State} (h : j + n ≤ s.plen) :
    inReadRun n j s = .ok ((List.range' j n).map s.inp.cells.read,
      s.logAll ((List.range' j n).map .inRead)) := by
  induction n generalizing j s with
  | zero => simp [inReadRun]
  | succ n ih =>
    rw [inReadRun, inRead_ok (by omega)]
    simp only
    rw [ih (by simp; omega)]
    simp [List.range'_succ]

/-- All of IN, read in order, is the payload (R160). -/
theorem inReadRun_all (s : State) :
    inReadRun s.plen 0 s = .ok (s.inp.toList, s.logAll ((List.range s.plen).map .inRead)) := by
  rw [inReadRun_ok (by omega)]
  simp [ByteSeq.toList, List.range_eq_range', State.plen]

/-! ### Micro-steps -/

section
variable {α β : Type}

@[simp] theorem andThen_done (a : α) (s : State) (k : α → State → Micro β) :
    (Micro.done a s).andThen k = k a s := rfl
@[simp] theorem andThen_stop (e : Status) (s : State) (k : α → State → Micro β) :
    (Micro.stop e s).andThen k = .stop e s := rfl
@[simp] theorem andThen_fault (f : Fault) (k : α → State → Micro β) :
    (Micro.fault f).andThen k = .fault f := rfl

end

@[simp] theorem State.length_streamBits (s : State) (pos n : Nat) : (s.streamBits pos n).length = n := by
  simp [State.streamBits]

theorem State.streamBits_append (s : State) (pos a b : Nat) :
    s.streamBits pos (a + b) = s.streamBits pos a ++ s.streamBits (pos + a) b := by
  simp [State.streamBits, ← List.map_append]

theorem State.streamBits_congr {s t : State} (h : s.pix = t.pix) (pos n : Nat) :
    s.streamBits pos n = t.streamBits pos n := by
  simp [State.streamBits, State.streamBit, h]

/-- The loop of BITS2I shifts the next n stream bits into ACC and hands on what ACC then holds. -/
theorem accLoop_ok {n pos : Nat} {s : State} {a : Word} (ha : s.acc = some a) (h : pos + n ≤ s.cap) :
    accLoop n pos a s = .done ((s.streamBits pos n).foldl shiftIn a)
      ((s.setAcc (some ((s.streamBits pos n).foldl shiftIn a))).logAll (s.streamReads pos n)) := by
  induction n generalizing pos s a with
  | zero =>
    rw [accLoop]
    congr 1
    ext1 <;> simp [State.streamBits, State.streamReads, ha]
  | succ n ih =>
    rw [accLoop, memRead_ok (by omega)]
    simp only
    rw [ih (a := shiftIn a (lsb (s.pix.read pos))) (by simp) (by simp; omega),
      State.streamBits_congr (t := s) rfl]
    congr 1
    ext1 <;> simp [State.streamBits, State.streamReads, State.streamBit, List.range'_succ]
    rfl

/-- BITS2I where n bits remain (R117): the value handed on is the one ACC holds; no bits remain to be read
where n = 0, wherever POS stands. -/
theorem bits2iMicro_ok {n pos : Nat} {s : State} (h : n ≤ s.cap - pos) :
    bits2iMicro n pos s = .done (bitsToInt (s.streamBits pos n))
      (((s.setStrm (.opened (pos + n))).setAcc
        (some (bitsToInt (s.streamBits pos n)))).logAll (s.streamReads pos n)) := by
  rw [bits2iMicro, if_neg (by omega)]
  cases n with
  | zero =>
    simp only [accLoop, andThen_done]
    congr 1
    ext1 <;> simp [State.streamReads]
    rfl
  | succ n =>
    rw [accLoop_ok (a := 0) (by simp) (by simp; omega)]
    simp only [andThen_done]
    congr 1

/-- BITS2I where fewer than n bits remain (R118). -/
theorem bits2iMicro_short {n pos : Nat} {s : State} (h : s.cap - pos < n) :
    bits2iMicro n pos s = .stop .streamExhausted (s.setStrm (.opened s.cap)) := by
  rw [bits2iMicro, if_pos h]

/-- PIXW of a group of C lanes on an existing pixel (R148). -/
theorem pixwMicro_ok {i : Nat} {g : List Bit} {s : State} (h : i < s.npix) (hg : g.length = s.c) :
    pixwMicro i g s = .done () ((s.setPix (s.pix.writeRun (s.pixelBase i)
      (List.zipWith lsbReplace (s.pixel i) g))).logAll [.pixRead i, .pixWrite i]) := by
  rw [pixwMicro, pixRead_ok h]
  simp only
  rw [pixWrite_ok (by simpa using h) (by simp [hg])]
  simp only
  congr 1
  ext1 <;> simp

/-- What PIXW leaves in PIX, byte by byte (R148). -/
theorem read_pixw {i : Nat} {g : List Bit} {s : State} (hw : s.pix.wf) (hg : g.length = s.c) (k : Nat) :
    (s.pix.writeRun (s.pixelBase i) (List.zipWith lsbReplace (s.pixel i) g)).read k =
      if s.pixelBase i ≤ k ∧ k < s.pixelBase i + s.c then
        lsbReplace (s.pix.read k) (g.getD (k - s.pixelBase i) 0) else s.pix.read k := by
  rw [Memory.read_writeRun hw]
  simp only [List.length_zipWith, State.length_pixel, hg, min_self]
  split
  · next hk =>
    obtain ⟨d, rfl⟩ : ∃ d, k = s.pixelBase i + d := ⟨k - s.pixelBase i, by omega⟩
    have hd : d < s.c := by omega
    simp [State.pixel, hd, hg]
  · rfl

/-- The accesses of PIXW on n consecutive pixels from i on. -/
def pixwAccesses (i n : Nat) : List Access :=
  (List.range' i n).flatMap fun p => [.pixRead p, .pixWrite p]

/-- What one PIXW for each group, to consecutive pixels from i on, makes of a pixel memory of C channels. -/
def pixwPix (c : Nat) : List (List Bit) → Nat → Memory → Memory
  | [], _, m => m
  | g :: gs, i, m =>
    pixwPix c gs (i + 1) (m.writeRun (i * c)
      (List.zipWith lsbReplace ((List.range c).map fun lane => m.read (i * c + lane)) g))

/-- Step E5: one PIXW for each group, to consecutive pixels (R161). -/
theorem pixwRun_ok {gs : List (List Bit)} {i : Nat} {s : State} (hi : i + gs.length ≤ s.npix)
    (hg : ∀ g ∈ gs, g.length = s.c) :
    pixwRun gs i s =
      .done () ((s.setPix (pixwPix s.c gs i s.pix)).logAll (pixwAccesses i gs.length)) := by
  induction gs generalizing i s with
  | nil => rw [pixwRun]; congr 1; ext1 <;> simp [pixwAccesses, pixwPix]
  | cons g gs ih =>
    simp only [List.length_cons] at hi
    let m0 := s.pix.writeRun (s.pixelBase i) (List.zipWith lsbReplace (s.pixel i) g)
    let s0 := (s.setPix m0).logAll [.pixRead i, .pixWrite i]
    have hs0 : pixwMicro i g s = .done () s0 := pixwMicro_ok (by omega) (hg g (by simp))
    rw [pixwRun, hs0, andThen_done, ih (s := s0) (by show i + 1 + _ ≤ s.npix; omega)
      (fun g' hg' => hg g' (by simp [hg']))]
    congr 1
    ext1 <;> simp [s0, m0, pixwAccesses, List.range'_succ, pixwPix, State.pixelBase, State.pixel]

theorem pixwPix_below {gs : List (List Bit)} {c i n : Nat} {m : Memory} (hm : m.below n)
    (hi : (i + gs.length) * c ≤ n) : (pixwPix c gs i m).below n := by
  induction gs generalizing i m with
  | nil => exact hm
  | cons g gs ih =>
    simp only [List.length_cons] at hi
    have h1 : (i + 1) * c ≤ (i + (gs.length + 1)) * c := Nat.mul_le_mul_right c (by omega)
    rw [Nat.add_mul, Nat.one_mul] at h1
    refine ih (Memory.writeRun_below hm ?_) (by rwa [show i + 1 + gs.length = i + (gs.length + 1) by omega])
    simp only [List.length_zipWith, List.length_map, List.length_range]
    omega

/-- PIX after the groups are written: each channel of a written pixel keeps bits 7..1 and takes its bit of
the padded frame; every other channel is as before (R161). -/
theorem pixwPix_read {gs : List (List Bit)} {c i : Nat} {m : Memory} (hw : m.wf)
    (hg : ∀ g ∈ gs, g.length = c) :
    (pixwPix c gs i m).wf ∧
      (∀ k, i * c ≤ k → k < i * c + gs.length * c →
        (pixwPix c gs i m).read k = lsbReplace (m.read k) (gs.flatten.getD (k - i * c) 0)) ∧
      (∀ k, k < i * c ∨ i * c + gs.length * c ≤ k → (pixwPix c gs i m).read k = m.read k) := by
  induction gs generalizing i m with
  | nil =>
    refine ⟨hw, fun k _ _ => ?_, fun _ _ => rfl⟩
    simp only [List.length_nil, Nat.zero_mul] at *; omega
  | cons g gs ih =>
    have hgc : g.length = c := hg g (by simp)
    let m0 := m.writeRun (i * c)
      (List.zipWith lsbReplace ((List.range c).map fun lane => m.read (i * c + lane)) g)
    have e1 : (i + 1) * c = i * c + c := by ring
    have e2 : (gs.length + 1) * c = c + gs.length * c := by ring
    have hm0 : ∀ k, m0.read k = if i * c ≤ k ∧ k < i * c + c then
        lsbReplace (m.read k) (g.getD (k - i * c) 0) else m.read k := by
      intro k
      rw [Memory.read_writeRun hw]
      simp only [List.length_zipWith, List.length_map, List.length_range, hgc, min_self]
      split
      · next hk =>
        obtain ⟨d, rfl⟩ : ∃ d, k = i * c + d := ⟨k - i * c, by omega⟩
        have hd : d < c := by omega
        simp [hd, hgc]
      · rfl
    obtain ⟨hw', hin, hout⟩ := ih (i := i + 1) (m := m0) (Memory.writeRun_wf hw _ _)
      (fun g' hg' => hg g' (by simp [hg']))
    rw [e1] at hin hout
    simp only [pixwPix]
    refine ⟨hw', fun k h1 h2 => ?_, fun k h1 => ?_⟩
    · rw [List.length_cons, e2] at h2
      rw [List.flatten_cons]
      by_cases ha : k < i * c + c
      · rw [hout k (.inl ha), hm0, if_pos ⟨h1, ha⟩, List.getD_append _ _ _ _ (by omega)]
      · rw [hin k (by omega) (by omega), hm0, if_neg (by omega),
          List.getD_append_right _ _ _ _ (by omega)]
        congr 2
        omega
    · rw [List.length_cons, e2] at h1
      rw [hout k (by omega), hm0, if_neg (by omega)]

end Sys2Proof.Machine
end

