-- ==== Sys2Proof/Laws/Sequencers.lean ====
section
/-! SUPPORT. What the steps of the two sequencers do: EMBED's E1 to E5 (`43_embed.md` R157) and EXTRACT's
X1 to X4 (`44_extract.md` R177). -/

namespace Sys2Proof.Machine

/-! ### EMBED -/

/-- The frame of the payload in IN (R80): what EMBED writes. -/
def State.frame (s : State) : List Bit :=
  frameBits (intToBytes (BitVec.ofNat 32 s.plen)) s.inp.toList

@[simp] theorem State.length_frame (s : State) : s.frame.length = required s.plen := by
  simp [State.frame, State.plen]

/-- A length below 2^32 survives the 32-bit LEN (R158). -/
theorem toNat_length {n : Nat} (h : n < Config.lengthLimit) : (BitVec.ofNat 32 n).toNat = n := by
  rw [BitVec.toNat_ofNat]; exact Nat.mod_eq_of_lt h

/-- A required count fits the image: then C ≥ 1 and the touched pixels exist (R163). -/
theorem touched_bounds {s : State} {l : Nat} (h : required l ≤ s.cap) :
    0 < s.c ∧ touchedPixels l s.c ≤ s.npix ∧ required l ≤ touchedPixels l s.c * s.c ∧
      touchedPixels l s.c * s.c ≤ s.cap := by
  have hc : 0 < s.c := by
    refine Nat.pos_of_ne_zero fun e => ?_
    simp [State.cap, e, required] at h
  have hle : touchedPixels l s.c ≤ s.npix := (divCeil_le_iff _ _ hc).2 h
  exact ⟨hc, hle, divCeil_mul_ge _ hc, Nat.mul_le_mul_right s.c hle⟩

/-- The value step E1 hands on is the one LEN holds (R22). -/
theorem embedCheckLength_len {s t : State} {l : Word} (h : embedCheckLength s = .done l t) :
    t.len = some l := by
  unfold embedCheckLength at h
  split at h <;> cases h
  rfl

/-- The value step E3 hands on is the one HDR holds (R22). -/
theorem embedHeader_hdr {s t : State} {l : Word} {hdr : Bytes4} (h : embedHeader l s = .done hdr t) :
    t.hdr = some hdr := by
  cases h; rfl

/-- EMBED's checks turn away a payload that does not fit; nothing but LEN has been written (R158, R159). -/
theorem embedSteps_tooLarge {s : State} (h : Config.lengthLimit ≤ s.plen ∨ s.cap < required s.plen) :
    ∃ l, embedSteps s = .stop .payloadTooLarge (s.setLen l) := by
  by_cases h1 : Config.lengthLimit ≤ s.plen
  · refine ⟨s.len, ?_⟩
    rw [embedSteps, embedCheckLength, if_pos h1]
    rfl
  · have h2 : s.cap < required s.plen := h.resolve_left h1
    have hn := toNat_length (Nat.lt_of_not_le h1)
    refine ⟨some (BitVec.ofNat 32 s.plen), ?_⟩
    rw [embedSteps, embedCheckLength, if_neg h1, andThen_done, embedCheckCapacity]
    simp only [State.setLen_cap, hn, if_pos h2, andThen_stop]

/-- PIX after EMBED has written the frame of the payload. -/
def State.embeddedPix (s : State) : Memory := pixwPix s.c (group s.c s.frame) 0 s.pix

/-- The accesses of a successful EMBED (R160, R161, R240): IN once per byte, then each touched pixel read
and written, in ascending order. -/
def State.embedAccesses (s : State) : List Access :=
  (List.range s.plen).map .inRead ++ pixwAccesses 0 (touchedPixels s.plen s.c)

/-- EMBED's steps on a payload that fits: LEN, HDR and PIX written. -/
theorem embedSteps_ok {s : State} (h1 : s.plen < Config.lengthLimit) (h2 : required s.plen ≤ s.cap) :
    embedSteps s = .done () ((((s.setLen (some (BitVec.ofNat 32 s.plen))).setHdr
      (some (intToBytes (BitVec.ofNat 32 s.plen)))).setPix s.embeddedPix).logAll s.embedAccesses) := by
  obtain ⟨hc, hG, _, _⟩ := touched_bounds h2
  have hn := toNat_length h1
  let s1 := (s.setLen (some (BitVec.ofNat 32 s.plen))).setHdr
    (some (intToBytes (BitVec.ofNat 32 s.plen)))
  let s2 := s1.logAll ((List.range s.plen).map .inRead)
  have hgl : (group s.c s.frame).length = touchedPixels s.plen s.c := by
    rw [length_group, State.length_frame]; rfl
  have hsteps : embedSteps s = pixwRun (group s.c s.frame) 0 s2 := by
    rw [embedSteps, embedCheckLength, if_neg (by omega), andThen_done, embedCheckCapacity]
    simp only [State.setLen_cap, hn, if_neg (Nat.not_lt.2 h2), andThen_done, embedHeader]
    show embedWrite _ _ s1 = _
    have hrun : inReadRun s.plen 0 s1 = .ok (s.inp.toList, s2) := inReadRun_all s1
    rw [embedWrite, hn, hrun]
    rfl
  rw [hsteps, pixwRun_ok (s := s2) (by rw [hgl]; show 0 + _ ≤ s.npix; omega)
    (fun g hg => length_of_mem_group hc hg), hgl]
  congr 1
  ext1 <;> simp [s2, s1, State.embeddedPix, State.embedAccesses]

theorem embeddedPix_below {s : State} (h : required s.plen ≤ s.cap) (hb : s.pix.below s.cap) :
    s.embeddedPix.below s.cap := by
  obtain ⟨_, _, _, hGc⟩ := touched_bounds h
  refine pixwPix_below hb ?_
  rw [length_group, State.length_frame, Nat.zero_add]
  exact hGc

/-- The closed form of R161, in the order of its table. -/
theorem embeddedPix_read {s : State} (h : required s.plen ≤ s.cap) (hw : s.pix.wf) :
    s.embeddedPix.wf ∧
      (∀ k, k < required s.plen → s.embeddedPix.read k = lsbReplace (s.pix.read k) (s.frame.getD k 0)) ∧
      (∀ k, required s.plen ≤ k → k < touchedPixels s.plen s.c * s.c →
        s.embeddedPix.read k = lsbReplace (s.pix.read k) 0) ∧
      (∀ k, touchedPixels s.plen s.c * s.c ≤ k → s.embeddedPix.read k = s.pix.read k) := by
  obtain ⟨hc, _, hR, _⟩ := touched_bounds h
  have hgl : (group s.c s.frame).length = touchedPixels s.plen s.c := by
    rw [length_group, State.length_frame]; rfl
  obtain ⟨hmw, hin, hout⟩ := pixwPix_read (i := 0) hw (fun g hg => length_of_mem_group (l := s.frame) hc hg)
  rw [hgl] at hin hout
  simp only [Nat.zero_mul, Nat.zero_add, Nat.zero_le, true_implies, Nat.sub_zero, flatten_group hc,
    padded, Nat.not_lt_zero, false_or] at hin hout
  refine ⟨hmw, fun k hk => ?_, fun k hk1 hk2 => ?_, hout⟩
  · exact (hin k (by omega)).trans (by rw [List.getD_append _ _ _ _ (by simpa using hk)])
  · refine (hin k hk2).trans ?_
    rw [List.getD_append_right _ _ _ _ (by simpa using hk1)]
    congr 1
    simp only [List.getD_eq_getElem?_getD, List.getElem?_replicate]
    split <;> rfl

/-! ### EXTRACT -/

/-- Fewer than 32 channels: the header cannot be read (R179). -/
theorem extractSteps_truncated {s : State} (h : s.cap < 32) :
    ∃ x, extractSteps s = .stop .truncated (s.setStrm x) := by
  refine ⟨.opened s.cap, ?_⟩
  rw [extractSteps, extractHeader, extractBits, bits2iMicro_short (by simpa using h)]
  rfl

/-- The header is read: the value handed on and LEN are the declared length, and POS is 32 (R179). -/
theorem extractHeader_ok {s : State} (h : 32 ≤ s.cap) :
    extractHeader (s.setStrm (.opened 0)) = .done s.declaredLength
      ((((s.setStrm (.opened 32)).setAcc (some s.declaredLength)).setLen
        (some s.declaredLength)).logAll (s.streamReads 0 32)) := by
  rw [extractHeader, extractBits, bits2iMicro_ok (by simpa using h)]
  rfl

/-- A declared frame that does not fit: `NoHiddenData` (R180), with the payload unread (R178). -/
theorem extractSteps_noHiddenData {s : State} (h : 32 ≤ s.cap)
    (hl : s.cap < 32 + s.declaredLength.toNat * 8) :
    extractSteps s = .stop .noHiddenData ((((s.setStrm (.opened 32)).setAcc
      (some s.declaredLength)).setLen (some s.declaredLength)).logAll (s.streamReads 0 32)) := by
  rw [extractSteps, extractHeader_ok h, andThen_done, extractCheckCapacity]
  simp [hl]

/-- The accesses of reading n payload bytes from stream position pos to index j of OUT. -/
def State.payloadAccesses (s : State) (pos j n : Nat) : List Access :=
  (List.range n).flatMap fun t => s.streamReads (pos + 8 * t) 8 ++ [.outWrite (j + t)]

/-- The n payload bytes from stream position pos on. -/
def State.streamPayload (s : State) (pos n : Nat) : List Byte :=
  (List.range n).map fun t => s.streamByte (pos + 8 * t)

@[simp] theorem State.length_streamPayload (s : State) (pos n : Nat) :
    (s.streamPayload pos n).length = n := by simp [State.streamPayload]

theorem State.streamPayload_succ (s : State) (pos n : Nat) :
    s.streamPayload pos (n + 1) = s.streamByte pos :: s.streamPayload (pos + 8) n := by
  simp [State.streamPayload, List.range_succ_eq_map, Function.comp_def, Nat.mul_add, Nat.add_assoc,
    Nat.add_comm]

theorem State.payloadAccesses_succ (s : State) (pos j n : Nat) :
    s.payloadAccesses pos j (n + 1) =
      s.streamReads pos 8 ++ [.outWrite j] ++ s.payloadAccesses (pos + 8) (j + 1) n := by
  simp [State.payloadAccesses, List.range_succ_eq_map, List.flatMap_map, Nat.mul_add, Nat.add_assoc,
    Nat.add_comm, Nat.add_left_comm]

/-- The payload loop (R181): n bytes of the stream to consecutive indices of OUT. -/
theorem extractLoop_ok {n j pos : Nat} {s : State} {o : ByteSeq} (hs : s.strm = .opened pos)
    (ho : s.out = some o) (hj : o.len = j) (h : pos + 8 * n ≤ s.cap) :
    ∃ a, extractLoop n j pos s = .done () ((((s.setStrm (.opened (pos + 8 * n))).setAcc a).setOut
      (some ⟨j + n, o.cells.writeRun j (s.streamPayload pos n)⟩)).logAll
      (s.payloadAccesses pos j n)) := by
  induction n generalizing j pos s o with
  | zero =>
    refine ⟨s.acc, ?_⟩
    rw [extractLoop]
    congr 1
    ext1 <;> simp [hs, ho, ← hj, State.streamPayload, State.payloadAccesses, Memory.writeRun]
  | succ n ih =>
    rw [extractLoop, extractBits, bits2iMicro_ok (by omega)]
    simp only [andThen_done]
    obtain ⟨a, ha⟩ := ih (j := j + 1) (pos := pos + 8) (o := o.put j (s.streamByte pos))
      (s := outWrite j (s.streamByte pos) ((((s.setStrm (.opened (pos + 8))).setAcc
        (some (bitsToInt (s.streamBits pos 8)))).logAll (s.streamReads pos 8))))
      (by simp [outWrite]) (by simp [outWrite, ho]) (by simp [ByteSeq.put, hj])
      (by simp [outWrite]; omega)
    refine ⟨a, ?_⟩
    change extractLoop n (j + 1) (pos + 8) (outWrite j (s.streamByte pos) _) = _
    rw [ha]
    congr 1
    ext1
    case strm => simp [outWrite]; ring
    case out =>
      simp [outWrite, ByteSeq.put, State.streamPayload_succ, Memory.writeRun]
      exact ⟨by omega, rfl⟩
    case accesses =>
      simp [outWrite, State.payloadAccesses_succ]
      rfl
    all_goals simp [outWrite]

/-- EXTRACT's steps on a declared frame that fits (R179 to R181); LEN still holds the value handed on. -/
theorem extractSteps_ok {s : State} (h : 32 + s.declaredLength.toNat * 8 ≤ s.cap) :
    ∃ x a, extractSteps s = .done s.declaredLength (((((s.setStrm x).setAcc a).setLen
      (some s.declaredLength)).setOut (some ⟨s.declaredLength.toNat,
        Memory.writeRun [] 0 (s.streamPayload 32 s.declaredLength.toNat)⟩)).logAll
      (s.streamReads 0 32 ++ s.payloadAccesses 32 0 s.declaredLength.toNat)) := by
  let s1 := (((s.setStrm (.opened 32)).setAcc (some s.declaredLength)).setLen
        (some s.declaredLength)).logAll (s.streamReads 0 32)
  obtain ⟨a, ha⟩ := extractLoop_ok (n := s.declaredLength.toNat) (j := 0) (pos := 32)
    (s := s1.setOut (some ⟨0, []⟩)) (o := ⟨0, []⟩) (by simp [s1]) (by simp) rfl
    (by simp [s1]; omega)
  refine ⟨.opened (32 + 8 * s.declaredLength.toNat), a, ?_⟩
  have hcheck : extractCheckCapacity s.declaredLength s1 = .done () s1 := by
    simp [extractCheckCapacity, s1, Nat.not_lt.2 h]
  have hpay : extractPayload s.declaredLength s1 =
      extractLoop s.declaredLength.toNat 0 32 (s1.setOut (some ⟨0, []⟩)) := rfl
  have hhead : extractHeader (s.setStrm (.opened 0)) = .done s.declaredLength s1 :=
    extractHeader_ok (by omega)
  rw [extractSteps, hhead, andThen_done, hcheck, andThen_done, hpay, ha, andThen_done]
  congr 1
  ext1 <;> simp [s1]
  all_goals rfl

/-- A byte sequence written from index 0 into an empty memory is that sequence. -/
theorem toList_written (l : List Byte) : (ByteSeq.mk l.length (Memory.writeRun [] 0 l)).toList = l := by
  refine List.ext_getElem (by simp) fun j h1 h2 => ?_
  rw [ByteSeq.getElem_toList]
  simp [Memory.read_writeRun Memory.wf_nil, h2]

theorem written_wf (l : List Byte) : (ByteSeq.mk l.length (Memory.writeRun [] 0 l)).wf :=
  ⟨Memory.writeRun_wf Memory.wf_nil _ _, Memory.writeRun_below (by simp) (by simp)⟩

end Sys2Proof.Machine
end

