-- ==== Sys2Proof/Laws/Exec.lean ====
section
/-! SUPPORT. What `exec` answers, operation by operation, in the model's own terms, and the inversion lemma
`exec_ends`: every operation ends in a next state, and in one of these ways. -/

namespace Sys2Proof.Machine

/-! ### Admission -/

/-- Not admitted, as R90 spells it out. -/
theorem admitted_eq_false {i : Instr} {s : State} : admitted i s = false ↔ s.inadmissible i := by
  cases i with
  | bits2i n =>
    cases hs : s.strm <;> simp [admitted, State.inadmissible, Instr.wellFormed, hs]
  | pull => cases hs : s.strm <;> simp [admitted, State.inadmissible, Instr.wellFormed, hs]
  | pixr i =>
    simp only [admitted, State.inadmissible, Instr.wellFormed, Bool.true_and,
      decide_eq_false_iff_not, Nat.not_lt]
    rfl
  | pixw i g =>
    simp only [admitted, State.inadmissible, Instr.wellFormed, Bool.true_and,
      Bool.and_eq_false_iff, decide_eq_false_iff_not, Nat.not_lt, ne_eq]
    rfl
  | _ => simp [admitted, State.inadmissible, Instr.wellFormed]

theorem admitted_of_not {i : Instr} {s : State} (h : ¬ s.inadmissible i) : admitted i s = true := by
  rw [← admitted_eq_false] at h
  simpa using h

theorem whenAdmitted_of_not {i : Instr} {s : State} (h : ¬ s.inadmissible i) (body : Result) :
    whenAdmitted i s body = body := by
  rw [whenAdmitted, if_pos (admitted_of_not h)]

/-- An operation that is not admitted is refused (R92). -/
theorem exec_refused {i : Instr} {s : State} (h : s.inadmissible i) : exec i s = .next s.refuse := by
  have h' := admitted_eq_false.2 h
  cases i <;> simp [exec, execB2bits, execSopen, execPull, execBits2i, execI2b, execB2i, execLsbr,
    execLsbw, execPixr, execPixw, execEmbed, execExtract, whenAdmitted, h']

/-! ### The operations without a memory access -/

theorem exec_b2bits (bytes : List Byte) (s : State) :
    exec (.b2bits bytes) s = .next (s.finish (some (.bits (bytesToBits bytes)))) := rfl

theorem exec_sopen (s : State) : exec .sopen s = .next ((s.setStrm (.opened 0)).finish none) := rfl

theorem exec_i2b (n : Word) (s : State) :
    exec (.i2b n) s = .next (s.finish (some (.bytes4 (intToBytes n)))) := rfl

theorem exec_b2i (b : Bytes4) (s : State) :
    exec (.b2i b) s = .next (s.finish (some (.u32 (bytesToInt b)))) := rfl

theorem exec_lsbr (v : Byte) (s : State) : exec (.lsbr v) s = .next (s.finish (some (.bit (lsb v)))) := rfl

theorem exec_lsbw (v : Byte) (b : Bit) (s : State) :
    exec (.lsbw v b) s = .next (s.finish (some (.byte (lsbReplace v b)))) := rfl

/-! ### The stream operations -/

theorem exec_pull_bit {s : State} {pos : Nat} (hs : s.strm = .opened pos) (h : pos < s.cap) :
    exec .pull s = .next (((s.logAll [.pixRead (pos / s.c)]).setStrm (.opened (pos + 1))).finish
      (some (.pulled (some (s.streamBit pos))))) := by
  rw [exec, execPull, whenAdmitted_of_not (by simp [State.inadmissible, hs]), hs]
  simp only [if_pos h, memRead_ok h]
  rfl

theorem exec_pull_exhausted {s : State} {pos : Nat} (hs : s.strm = .opened pos) (h : s.cap ≤ pos) :
    exec .pull s = .next (s.finish (some (.pulled none))) := by
  rw [exec, execPull, whenAdmitted_of_not (by simp [State.inadmissible, hs]), hs]
  simp only [if_neg (Nat.not_lt.2 h)]

theorem exec_bits2i_ok {s : State} {n : BitVec 6} {pos : Nat} (hn : n.toNat ≤ 32)
    (hs : s.strm = .opened pos) (h : n.toNat ≤ s.cap - pos) :
    exec (.bits2i n) s = .next (((s.logAll (s.streamReads pos n.toNat)).setStrm
      (.opened (pos + n.toNat))).finish (some (.number (bitsToInt (s.streamBits pos n.toNat))))) := by
  rw [exec, execBits2i, whenAdmitted_of_not (by simp [State.inadmissible, hs, hn]), hs]
  simp only [bits2iMicro_ok h]
  rfl

theorem exec_bits2i_short {s : State} {n : BitVec 6} {pos : Nat} (hn : n.toNat ≤ 32)
    (hs : s.strm = .opened pos) (h : s.cap - pos < n.toNat) :
    exec (.bits2i n) s = .next ((s.setStrm (.opened s.cap)).raise .streamExhausted) := by
  rw [exec, execBits2i, whenAdmitted_of_not (by simp [State.inadmissible, hs, hn]), hs]
  simp only [bits2iMicro_short h]

/-! ### The pixel operations -/

theorem exec_pixr_ok {s : State} {i : Nat} (h : i < s.npix) :
    exec (.pixr i) s =
      .next ((s.logAll [.pixRead i]).finish (some (.lanes ((s.pixel i).map lsb)))) := by
  have h' : i < s.w * s.h := h
  rw [exec, execPixr, whenAdmitted_of_not (by simp [State.inadmissible, h']), pixRead_ok h]

theorem exec_pixw_ok {s : State} {i : Nat} {g : List Bit} (h : i < s.npix) (hg : g.length = s.c) :
    exec (.pixw i g) s = .next (((s.setPix (s.pix.writeRun (s.pixelBase i)
      (List.zipWith lsbReplace (s.pixel i) g))).logAll [.pixRead i, .pixWrite i]).finish none) := by
  have h' : i < s.w * s.h := h
  rw [exec, execPixw, whenAdmitted_of_not (by simp [State.inadmissible, h', hg]), pixwMicro_ok h hg]

/-! ### The sequencers -/

theorem exec_embed_tooLarge {s : State} (h : Config.lengthLimit ≤ s.plen ∨ s.cap < required s.plen) :
    exec .embed s = .next (s.raise .payloadTooLarge) := by
  obtain ⟨l, hl⟩ := embedSteps_tooLarge h
  rw [exec, execEmbed, whenAdmitted_of_not (by simp [State.inadmissible]), hl]
  rfl

theorem exec_embed_ok {s : State} (h1 : s.plen < Config.lengthLimit) (h2 : required s.plen ≤ s.cap) :
    exec .embed s = .next (((s.setPix s.embeddedPix).logAll s.embedAccesses).finish none) := by
  rw [exec, execEmbed, whenAdmitted_of_not (by simp [State.inadmissible]), embedSteps_ok h1 h2]
  rfl

theorem exec_extract_truncated {s : State} (h : s.cap < 32) :
    exec .extract s = .next (s.raiseExtract .truncated) := by
  obtain ⟨x, hx⟩ := extractSteps_truncated h
  rw [exec, execExtract, whenAdmitted_of_not (by simp [State.inadmissible]), hx]
  rfl

theorem exec_extract_noHiddenData {s : State} (h : 32 ≤ s.cap)
    (hl : s.cap < 32 + s.declaredLength.toNat * 8) :
    exec .extract s = .next ((s.logAll (s.streamReads 0 32)).raiseExtract .noHiddenData) := by
  rw [exec, execExtract, whenAdmitted_of_not (by simp [State.inadmissible]),
    extractSteps_noHiddenData h hl]
  rfl

/-- What a successful EXTRACT leaves in OUT. -/
def State.extractedOut (s : State) : ByteSeq :=
  ⟨s.declaredLength.toNat, Memory.writeRun [] 0 (s.streamPayload 32 s.declaredLength.toNat)⟩

/-- The accesses of a successful EXTRACT (R181, R240). -/
def State.extractAccesses (s : State) : List Access :=
  s.streamReads 0 32 ++ s.payloadAccesses 32 0 s.declaredLength.toNat

theorem exec_extract_ok {s : State} (h : 32 + s.declaredLength.toNat * 8 ≤ s.cap) :
    exec .extract s = .next ((((s.setStrm .closed).setOut (some s.extractedOut)).logAll
      s.extractAccesses).finish (some (.olen s.declaredLength))) := by
  obtain ⟨x, a, hx⟩ := extractSteps_ok h
  rw [exec, execExtract, whenAdmitted_of_not (by simp [State.inadmissible]), hx]
  rfl

theorem State.extractedOut_toList (s : State) :
    s.extractedOut.toList = s.streamPayload 32 s.declaredLength.toNat := by
  have := toList_written (s.streamPayload 32 s.declaredLength.toNat)
  rwa [State.length_streamPayload] at this

theorem State.extractedOut_wf (s : State) : s.extractedOut.wf := by
  have := written_wf (s.streamPayload 32 s.declaredLength.toNat)
  rwa [State.length_streamPayload] at this

/-! ### Every way an operation can end -/

/-- The ways an operation can end: `Ends i s t` says that operation i on state s leaves state t. -/
inductive Ends : Instr → State → State → Prop where
  | refused {i s} (h : s.inadmissible i) : Ends i s s.refuse
  | b2bits {bytes s} : Ends (.b2bits bytes) s (s.finish (some (.bits (bytesToBits bytes))))
  | sopen {s} : Ends .sopen s ((s.setStrm (.opened 0)).finish none)
  | pullBit {s pos} (hs : s.strm = .opened pos) (h : pos < s.cap) :
      Ends .pull s (((s.logAll [.pixRead (pos / s.c)]).setStrm (.opened (pos + 1))).finish
        (some (.pulled (some (s.streamBit pos)))))
  | pullExhausted {s pos} (hs : s.strm = .opened pos) (h : s.cap ≤ pos) :
      Ends .pull s (s.finish (some (.pulled none)))
  | bits2iOk {s n pos} (hn : n.toNat ≤ 32) (hs : s.strm = .opened pos) (h : n.toNat ≤ s.cap - pos) :
      Ends (.bits2i n) s (((s.logAll (s.streamReads pos n.toNat)).setStrm
        (.opened (pos + n.toNat))).finish (some (.number (bitsToInt (s.streamBits pos n.toNat)))))
  | bits2iShort {s n pos} (hn : n.toNat ≤ 32) (hs : s.strm = .opened pos)
      (h : s.cap - pos < n.toNat) :
      Ends (.bits2i n) s ((s.setStrm (.opened s.cap)).raise .streamExhausted)
  | i2b {n s} : Ends (.i2b n) s (s.finish (some (.bytes4 (intToBytes n))))
  | b2i {b s} : Ends (.b2i b) s (s.finish (some (.u32 (bytesToInt b))))
  | lsbr {v s} : Ends (.lsbr v) s (s.finish (some (.bit (lsb v))))
  | lsbw {v b s} : Ends (.lsbw v b) s (s.finish (some (.byte (lsbReplace v b))))
  | pixr {s i} (h : i < s.npix) :
      Ends (.pixr i) s ((s.logAll [.pixRead i]).finish (some (.lanes ((s.pixel i).map lsb))))
  | pixw {s i g} (h : i < s.npix) (hg : g.length = s.c) :
      Ends (.pixw i g) s (((s.setPix (s.pix.writeRun (s.pixelBase i)
        (List.zipWith lsbReplace (s.pixel i) g))).logAll [.pixRead i, .pixWrite i]).finish none)
  | embedTooLarge {s} (h : Config.lengthLimit ≤ s.plen ∨ s.cap < required s.plen) :
      Ends .embed s (s.raise .payloadTooLarge)
  | embedOk {s} (h1 : s.plen < Config.lengthLimit) (h2 : required s.plen ≤ s.cap) :
      Ends .embed s (((s.setPix s.embeddedPix).logAll s.embedAccesses).finish none)
  | extractTruncated {s} (h : s.cap < 32) : Ends .extract s (s.raiseExtract .truncated)
  | extractNoHiddenData {s} (h : 32 ≤ s.cap) (hl : s.cap < 32 + s.declaredLength.toNat * 8) :
      Ends .extract s ((s.logAll (s.streamReads 0 32)).raiseExtract .noHiddenData)
  | extractOk {s} (h : 32 + s.declaredLength.toNat * 8 ≤ s.cap) :
      Ends .extract s ((((s.setStrm .closed).setOut (some s.extractedOut)).logAll
        s.extractAccesses).finish (some (.olen s.declaredLength)))

/-- Every operation ends in a next state, in one of the ways of `Ends`. -/
theorem exec_ends (i : Instr) (s : State) : ∃ t, exec i s = .next t ∧ Ends i s t := by
  by_cases hi : s.inadmissible i
  · exact ⟨_, exec_refused hi, .refused hi⟩
  cases i with
  | b2bits bytes => exact ⟨_, rfl, .b2bits⟩
  | sopen => exact ⟨_, rfl, .sopen⟩
  | pull =>
    cases hs : s.strm with
    | closed => exact absurd hs hi
    | opened pos =>
      rcases Nat.lt_or_ge pos s.cap with h | h
      · exact ⟨_, exec_pull_bit hs h, .pullBit hs h⟩
      · exact ⟨_, exec_pull_exhausted hs h, .pullExhausted hs h⟩
  | bits2i n =>
    have hn : n.toNat ≤ 32 := Nat.not_lt.1 fun h => hi (.inl h)
    cases hs : s.strm with
    | closed => exact absurd (.inr hs) hi
    | opened pos =>
      rcases Nat.lt_or_ge (s.cap - pos) n.toNat with h | h
      · exact ⟨_, exec_bits2i_short hn hs h, .bits2iShort hn hs h⟩
      · exact ⟨_, exec_bits2i_ok hn hs h, .bits2iOk hn hs h⟩
  | i2b n => exact ⟨_, rfl, .i2b⟩
  | b2i b => exact ⟨_, rfl, .b2i⟩
  | lsbr v => exact ⟨_, rfl, .lsbr⟩
  | lsbw v b => exact ⟨_, rfl, .lsbw⟩
  | pixr i =>
    have h : i < s.npix := Nat.not_le.1 hi
    exact ⟨_, exec_pixr_ok h, .pixr h⟩
  | pixw i g =>
    have h : i < s.npix := Nat.not_le.1 fun h => hi (.inl h)
    have hg : g.length = s.c := not_not.1 fun h => hi (.inr h)
    exact ⟨_, exec_pixw_ok h hg, .pixw h hg⟩
  | embed =>
    by_cases h : Config.lengthLimit ≤ s.plen ∨ s.cap < required s.plen
    · exact ⟨_, exec_embed_tooLarge h, .embedTooLarge h⟩
    · have h1 : s.plen < Config.lengthLimit := Nat.not_le.1 fun h' => h (.inl h')
      have h2 : required s.plen ≤ s.cap := Nat.not_lt.1 fun h' => h (.inr h')
      exact ⟨_, exec_embed_ok h1 h2, .embedOk h1 h2⟩
  | extract =>
    rcases Nat.lt_or_ge s.cap 32 with h | h
    · exact ⟨_, exec_extract_truncated h, .extractTruncated h⟩
    · rcases Nat.lt_or_ge s.cap (32 + s.declaredLength.toNat * 8) with hl | hl
      · exact ⟨_, exec_extract_noHiddenData h hl, .extractNoHiddenData h hl⟩
      · exact ⟨_, exec_extract_ok hl, .extractOk hl⟩

/-- Inversion: if an operation answers a next state, it is one of `Ends`. -/
theorem ends_of_exec {i : Instr} {s t : State} (h : exec i s = .next t) : Ends i s t := by
  obtain ⟨t', ht, he⟩ := exec_ends i s
  rw [ht] at h
  cases h
  exact he

end Sys2Proof.Machine
end

