-- ==== Sys2Proof/Laws/PerInstr.lean ====
section
/-! SUPPORT. Statements made for each constructor of `Instr` apart. Family `TableWord`: the word an operation
encodes to selects the row of the operation table with its mnemonic, and no other row. -/

namespace Sys2Proof.Laws.TableWord

/-- The mnemonics of the table rows a word selects (R88). -/
def selected (cw : BitVec 8) : List String := (opcodeTable.filter fun r => r.selects cw).map OpRow.mnemonic

/-- The command word of `encode i` selects exactly one row of R88's table, the one of i's mnemonic. -/
def Statement (i : Instr) : Prop := selected (encode i).cw = [i.mnemonic]

theorem b2bits (bytes : List Byte) : Statement (.b2bits bytes) :=
  show selected 0x01#8 = ["B2BITS"] from by decide
theorem sopen : Statement .sopen :=
  show selected 0x02#8 = ["SOPEN"] from by decide
theorem pull : Statement .pull :=
  show selected 0x03#8 = ["PULL"] from by decide
theorem bits2i (n : BitVec 6) : Statement (.bits2i n) :=
  show selected 0x04#8 = ["BITS2I"] from by decide
theorem i2b (n : Word) : Statement (.i2b n) :=
  show selected 0x05#8 = ["I2B"] from by decide
theorem b2i (b : Bytes4) : Statement (.b2i b) :=
  show selected 0x06#8 = ["B2I"] from by decide
theorem lsbr (v : Byte) : Statement (.lsbr v) :=
  show selected 0x07#8 = ["LSBR"] from by decide
theorem lsbw (v : Byte) (b : Bit) : Statement (.lsbw v b) :=
  show selected 0x08#8 = ["LSBW"] from by decide
theorem pixr (i : Nat) : Statement (.pixr i) :=
  show selected 0x09#8 = ["PIXR"] from by decide
theorem pixw (i : Nat) (g : List Bit) : Statement (.pixw i g) :=
  show selected 0x0A#8 = ["PIXW"] from by decide
theorem embed : Statement .embed :=
  show selected 0x0B#8 = ["EMBED"] from by decide
theorem extract : Statement .extract :=
  show selected 0x0C#8 = ["EXTRACT"] from by decide

end Sys2Proof.Laws.TableWord
end

