-- ==== Sys2Proof/Laws/Streams.lean ====
section
/-! SUPPORT. What the operations read and write, in the words of the rules: stream bits as bit 0 of the
channels (`40_bit_packer.md` R114), header and payload bits of the frame (`20_memory.md` R62), the bytes
EXTRACT recovers (`44_extract.md` R181), and the pixels PIXW and EMBED leave. -/

namespace Sys2Proof.Machine

/-! ### Stream bits -/

/-- Bit-select is bit 0 (R141). -/
theorem lsb_eq (v : Byte) : lsb v = v.extractLsb' 0 1 := by revert v; decide

/-- Stream bit k is bit 0 of channel k (R114). -/
theorem streamBit_eq (s : State) (k : Nat) : s.streamBit k = (s.pix.read k).extractLsb' 0 1 := lsb_eq _

/-- The reads of n stream bits, position by position (R117). -/
theorem reads_eq (s : State) (pos n : Nat) :
    s.streamReads pos n = (List.range n).map fun t => .pixRead ((pos + t) / s.c) := by
  simp [State.streamReads, List.range'_eq_map_range, Function.comp_def]

/-- The number n stream bits spell, as R117 writes it. -/
theorem bitsNat_stream (s : State) (pos n : Nat) :
    bitsNat (s.streamBits pos n) =
      ∑ t ∈ Finset.range n,
        ((s.pix.read (pos + t)).extractLsb' 0 1).toNat * 2 ^ (n - 1 - t) := by
  rw [bitsNat_eq_sum, State.length_streamBits]
  refine Finset.sum_congr rfl fun t ht => ?_
  have ht' : t < n := by simpa using ht
  simp [State.streamBits, ht', streamBit_eq]

/-- The declared length, as R179 writes it. -/
theorem declared_eq (s : State) :
    s.declaredLength.toNat =
      ∑ k ∈ Finset.range 32, ((s.pix.read k).extractLsb' 0 1).toNat * 2 ^ (31 - k) := by
  rw [State.declaredLength, toNat_bitsToInt (by simp), bitsNat_stream]; simp

/-- A byte of the stream, as R181 writes it. -/
theorem streamByte_toNat (s : State) (pos : Nat) :
    (s.streamByte pos).toNat =
      ∑ t ∈ Finset.range 8, ((s.pix.read (pos + t)).extractLsb' 0 1).toNat * 2 ^ (7 - t) := by
  rw [State.streamByte, BitVec.toNat_setWidth, toNat_bitsToInt (by simp), Nat.mod_eq_of_lt,
    bitsNat_stream]
  simpa using bitsNat_lt (s.streamBits pos 8)

/-- Byte j of what EXTRACT leaves in OUT (R181). -/
theorem extracted_read (s : State) (j : Nat) (hj : j < s.declaredLength.toNat) :
    s.extractedOut.cells.read j = s.streamByte (32 + 8 * j) := by
  have h := s.extractedOut.getElem_toList (j := j) (by simpa [State.extractedOut] using hj)
  rw [← h]
  simp [State.extractedOut_toList, State.streamPayload]

/-- States whose stream bits agree on a range spell the same there. -/
theorem streamBits_congr_range {s t : State} {pos n : Nat}
    (h : ∀ k, pos ≤ k → k < pos + n → s.streamBit k = t.streamBit k) :
    s.streamBits pos n = t.streamBits pos n := by
  apply List.map_congr_left
  intro k hk
  rw [List.mem_range'_1] at hk
  exact h k hk.1 hk.2

/-- An EXTRACT that ends OK: the declared frame fits, and what it leaves (R183). -/
theorem extract_ok_inv {s t : State} (h : exec .extract s = .next t) (hok : t.status = .ok) :
    32 + s.declaredLength.toNat * 8 ≤ s.cap ∧
      t = (((s.setStrm .closed).setOut (some s.extractedOut)).logAll s.extractAccesses).finish
        (some (.olen s.declaredLength)) := by
  have he := ends_of_exec h
  generalize hi : Instr.extract = i at he
  cases he <;> simp_all [State.refuse, State.raise, State.raiseExtract]

/-- What n + 1 PULLs in a row on an open stream end with (R115): bit POS + n or the exhaustion signal, and POS
moved on by n + 1 but never past CAP. -/
theorem runAll_pull (n : Nat) {s : State} {pos : Nat} (hs : s.strm = .opened pos) (hle : pos ≤ s.cap) :
    ∃ u, runAll (List.replicate (n + 1) .pull) s = .next u ∧
      u.res = some (.pulled (if pos + n < s.cap then some (s.streamBit (pos + n)) else none)) ∧
      u.strm = .opened (min s.cap (pos + n + 1)) := by
  induction n generalizing s pos with
  | zero =>
    rcases Nat.lt_or_ge pos s.cap with h | h
    · refine ⟨((s.logAll [.pixRead (pos / s.c)]).setStrm (.opened (pos + 1))).finish
        (some (.pulled (some (s.streamBit pos)))), by simp [runAll, exec_pull_bit hs h], by simp [h], ?_⟩
      simp; omega
    · refine ⟨s.finish (some (.pulled none)), by simp [runAll, exec_pull_exhausted hs h], ?_, ?_⟩
      · simp; omega
      · simp [hs]; omega
  | succ n ih =>
    rcases Nat.lt_or_ge pos s.cap with h | h
    · let s1 := ((s.logAll [.pixRead (pos / s.c)]).setStrm (.opened (pos + 1))).finish
        (some (.pulled (some (s.streamBit pos))))
      obtain ⟨u, h1, h2, h3⟩ := ih (s := s1) (pos := pos + 1) rfl h
      rw [show pos + 1 + n = pos + (n + 1) by omega] at h2 h3
      exact ⟨u, by rw [List.replicate_succ, runAll, exec_pull_bit hs h]; exact h1, h2, h3⟩
    · obtain ⟨u, h1, h2, h3⟩ := ih (s := s.finish (some (.pulled none))) (pos := pos) hs hle
      have hc : (s.finish (some (.pulled none))).cap = s.cap := rfl
      refine ⟨u, by rw [List.replicate_succ, runAll, exec_pull_exhausted hs h]; exact h1, h2.trans ?_,
        h3.trans ?_⟩
      · rw [hc, if_neg (by omega), if_neg (by omega)]
      · rw [hc]; congr 1; omega

/-! ### Bits of headers and frames -/

/-- `I2B` undoes `B2I` (R134). -/
theorem intToBytes_bytesToInt (b : Bytes4) : intToBytes (bytesToInt b) = b := by
  obtain ⟨h0,h1,h2,h3⟩ := toNat_intToBytes (bytesToInt b)
  rw [toNat_bytesToInt] at h0 h1 h2 h3
  have := b.b0.isLt; have := b.b1.isLt; have := b.b2.isLt; have := b.b3.isLt
  have e : ∀ (x y : Bytes4), x.b0 = y.b0 → x.b1 = y.b1 → x.b2 = y.b2 → x.b3 = y.b3 → x = y := by
    rintro ⟨⟩ ⟨⟩; simp_all
  apply e <;> apply BitVec.eq_of_toNat_eq <;> omega

/-- The closed form of R111. -/
theorem getElem?_bytesToBits (bytes : List Byte) (j : Nat) (hj : j < bytes.length) (t : Nat)
    (ht : t ≤ 7) :
    (bytesToBits bytes)[8 * j + t]? = some (bytes[j].extractLsb' (7 - t) 1) := by
  induction bytes generalizing j with
  | nil => simp at hj
  | cons v bytes ih =>
    have hsplit : bytesToBits (v :: bytes) = byteBits v ++ bytesToBits bytes := by simp [bytesToBits]
    rw [hsplit]
    cases j with
    | zero =>
      rw [List.getElem?_append_left (by simp; omega)]
      simp [byteBits, show t < 8 by omega]
    | succ j =>
      rw [List.getElem?_append_right (by simp; omega)]
      simp only [length_byteBits, List.getElem_cons_succ]
      rw [show 8 * (j+1) + t - 8 = 8 * j + t by omega]
      exact ih j (by simpa using hj)

/-- The eight bits of byte j (R111). -/
theorem drop_byte (l : List Byte) (j : Nat) (hj : j < l.length) :
    ((bytesToBits l).drop (8 * j)).take 8 = byteBits l[j] := by
  induction l generalizing j with
  | nil => simp at hj
  | cons v l ih =>
    have hsplit : bytesToBits (v :: l) = byteBits v ++ bytesToBits l := by simp [bytesToBits]
    rw [hsplit]
    cases j with
    | zero => simp
    | succ j =>
      rw [List.drop_append, List.drop_eq_nil_of_le (by simp)]
      simp only [length_byteBits, List.nil_append, List.getElem_cons_succ]
      rw [show 8 * (j+1) - 8 = 8 * j by omega]
      exact ih j (by simpa using hj)

/-- Header bit k is bit 31 − k of the length (R137). -/
theorem header_bit (n : Word) (k : Nat) (hk : k < 32) :
    (bytesToBits (intToBytes n).toList)[k]? = some (n.extractLsb' (31 - k) 1) := by
  have h := getElem?_bytesToBits (intToBytes n).toList (k / 8) (by simp; omega) (k % 8) (by omega)
  rw [show 8 * (k / 8) + k % 8 = k by omega] at h
  rw [h]
  obtain ⟨h0,h1,h2,h3⟩ := toNat_intToBytes n
  congr 1
  apply BitVec.eq_of_toNat_eq
  have : k / 8 = 0 ∨ k / 8 = 1 ∨ k / 8 = 2 ∨ k / 8 = 3 := by omega
  simp only [BitVec.extractLsb'_toNat, Nat.shiftRight_eq_div_pow]
  have key : ∀ (x d e : Nat), e < 8 → x / 2 ^ d % 256 / 2 ^ e % 2 = x / 2^(d+e) % 2 := by
    intro x d e he
    rw [pow_add, ← Nat.div_div_eq_div_mul]
    generalize x / 2^d = y
    have : e = 0 ∨ e = 1 ∨ e = 2 ∨ e = 3 ∨ e = 4 ∨ e = 5 ∨ e = 6 ∨ e = 7 := by omega
    rcases this with h|h|h|h|h|h|h|h <;> subst h <;> norm_num <;> omega
  rcases this with h|h|h|h <;>
    simp only [h, Bytes4.toList, List.getElem_cons_zero, List.getElem_cons_succ]
  · rw [h0]; convert key n.toNat 24 (7 - k%8) (by omega) using 4; omega
  · rw [h1]; convert key n.toNat 16 (7 - k%8) (by omega) using 4; omega
  · rw [h2]; convert key n.toNat 8 (7 - k%8) (by omega) using 4; omega
  · rw [h3]
    have := key n.toNat 0 (7 - k%8) (by omega)
    simp only [pow_zero, Nat.div_one, Nat.zero_add] at this
    convert this using 4; omega

/-- The header bits of the frame (R80). -/
theorem frame_header (s : State) (k : Nat) (hk : k < 32) :
    s.frame.getD k 0 = (BitVec.ofNat 32 s.plen).extractLsb' (31 - k) 1 := by
  have := header_bit (BitVec.ofNat 32 s.plen) k hk
  rw [List.getD_eq_getElem?_getD, State.frame, frameBits, bytesToBits_append,
    List.getElem?_append_left (by simpa using hk), this]
  rfl

/-- The payload bits of the frame (R80). -/
theorem frame_payload (s : State) (j t : Nat) (hj : j < s.plen) (ht : t ≤ 7) :
    s.frame.getD (32 + 8 * j + t) 0 = (s.inp.cells.read j).extractLsb' (7 - t) 1 := by
  rw [List.getD_eq_getElem?_getD, State.frame, frameBits, bytesToBits_append,
    List.getElem?_append_right (by simp; omega)]
  simp only [length_bytesToBits, length_toList]
  rw [show 32 + 8 * j + t - 8 * 4 = 8 * j + t by omega,
    getElem?_bytesToBits _ j (by simpa [State.plen] using hj) t ht, ByteSeq.getElem_toList]
  rfl

/-! ### Pixels written -/

/-- A lane after PIXW (R148). -/
theorem pixw_read {i : Nat} {g : List Bit} {s : State} (hw : s.pix.wf) (hg : g.length = s.c)
    (lane : Nat) (hl : lane < s.c) :
    (s.pix.writeRun (s.pixelBase i) (List.zipWith lsbReplace (s.pixel i) g)).read
        (s.pixelBase i + lane) =
      lsbReplace (s.pix.read (s.pixelBase i + lane)) (g.getD lane 0) := by
  rw [read_pixw hw hg, if_pos (by omega)]; simp

/-- An EMBED that ends OK: the payload fits, and what it leaves (R162). -/
theorem embed_ok_inv {s t : State} (h : exec .embed s = .next t) (hok : t.status = .ok) :
    s.plen < Config.lengthLimit ∧ required s.plen ≤ s.cap ∧
      t = ((s.setPix s.embeddedPix).logAll s.embedAccesses).finish none := by
  have he := ends_of_exec h
  generalize hi : Instr.embed = i at he
  cases he <;> simp_all [State.refuse, State.raise]

/-- After EMBED the stream spells the frame (R164 c). -/
theorem embed_streamBits (s t : State) (h2 : required s.plen ≤ s.cap) (hw : s.pix.wf)
    (ht : t.pix = s.embeddedPix) (pos n : Nat) (h : pos + n ≤ required s.plen) :
    t.streamBits pos n = (s.frame.drop pos).take n := by
  obtain ⟨_, hin, _, _⟩ := embeddedPix_read h2 hw
  apply List.ext_getElem
  · simp; omega
  · intro k h3 h4
    simp at h3
    simp only [State.streamBits, List.getElem_map, List.getElem_range', List.getElem_take,
      List.getElem_drop, State.streamBit, ht]
    rw [hin _ (by omega), lsb_lsbReplace]
    have hlt : pos + k < s.frame.length := by simp; omega
    simp [List.getD_eq_getElem?_getD, List.getElem?_eq_getElem hlt]

end Sys2Proof.Machine
end

