-- ==== Sys2Proof/Tests/Slice0.lean ====
section
/-! SUPPORT. Tests of the model, with expected results taken from `spec/95_test_vectors.md` (V1 to V44) or
worked out by hand from the rule named, and the witnesses of the obligations' hypotheses. -/

namespace Sys2Proof.Tests

open Sys2Proof Sys2Proof.Machine

/-! ### Helpers -/

/-- The state after a step that goes on. -/
def after (r : Result) : Option State :=
  match r with
  | .next t => some t
  | .fault _ => none
  | .refused _ => none

/-- The fault of a step that faults. -/
def faultOf (r : Result) : Option Fault :=
  match r with
  | .next _ => none
  | .fault f => some f
  | .refused _ => none

/-- The reset state with an image presented. -/
def img (w h c : Nat) (px : List Byte) : State :=
  { State.reset with w := w, h := h, c := c, pix := Memory.ofBytes 0 px }

/-- With a payload presented. -/
def State.withPayload (bytes : List Byte) (s : State) : State := { s with inp := ByteSeq.ofList bytes }

/-- With the stream open. -/
def State.at (pos : Nat) (s : State) : State := { s with strm := .opened pos }

/-- With one action pending. -/
def State.next (a : HostAction) (s : State) : State := { s with pending := [a] }

/-- The image 1×1×3 with pixel `FF 00 81` of V5. -/
def s3 : State := img 1 1 3 [0xFF, 0x00, 0x81]

/-- An image 32×1×1 whose channels are all `v`: CAP = 32. -/
def s32 (v : Byte) : State := img 32 1 1 (List.replicate 32 v)

/-- An image of CAP = 40 with header 1 and payload byte 0x41: 39 channels even or odd as the frame says. -/
def s40 : State := img 5 1 8 (List.replicate 31 0x10 ++ [0x11] ++
  [0x10, 0x11, 0x10, 0x10, 0x10, 0x10, 0x10, 0x11])

/-! ### Well-formedness (`30_encoding.md` R90) -/

theorem test_wellFormed_bits2i_32 : (Instr.bits2i 32).wellFormed = true := by decide
theorem test_illFormed_bits2i_33 : (Instr.bits2i 33).wellFormed = false := by decide
theorem test_illFormed_bits2i_63 : (Instr.bits2i 63).wellFormed = false := by decide
theorem test_illFormed_is_refused : admitted (.bits2i 33) (State.at 0 s3) = false := by decide

/-! ### Decoding: the words of R88 and R91, written bit by bit -/

/-- An operand record with a value of its own in every field. -/
def ops : Operands :=
  { bytes := [0xA5], n6 := 8, n32 := 0x01020304, b4 := ⟨0, 0, 1, 0⟩, v := 0x81, b := 1, i := 7, g := [1, 0] }

theorem test_decode_b2bits : (decode ⟨0b00000001, ops⟩).toOption = some (.b2bits [0xA5]) := by decide
theorem test_decode_sopen : (decode ⟨0b00000010, ops⟩).toOption = some .sopen := by decide
theorem test_decode_pull : (decode ⟨0b00000011, ops⟩).toOption = some .pull := by decide
theorem test_decode_bits2i : (decode ⟨0b00000100, ops⟩).toOption = some (.bits2i 8) := by decide
theorem test_decode_i2b : (decode ⟨0b00000101, ops⟩).toOption = some (.i2b 0x01020304) := by decide
theorem test_decode_b2i : (decode ⟨0b00000110, ops⟩).toOption = some (.b2i ⟨0, 0, 1, 0⟩) := by decide
theorem test_decode_lsbr : (decode ⟨0b00000111, ops⟩).toOption = some (.lsbr 0x81) := by decide
theorem test_decode_lsbw : (decode ⟨0b00001000, ops⟩).toOption = some (.lsbw 0x81 1) := by decide
theorem test_decode_pixr : (decode ⟨0b00001001, ops⟩).toOption = some (.pixr 7) := by decide
theorem test_decode_pixw : (decode ⟨0b00001010, ops⟩).toOption = some (.pixw 7 [1, 0]) := by decide
theorem test_decode_embed : (decode ⟨0b00001011, ops⟩).toOption = some .embed := by decide
theorem test_decode_extract : (decode ⟨0b00001100, ops⟩).toOption = some .extract := by decide

/-- V40, V41, V42, V44: reserved words. -/
theorem test_decode_reserved :
    [0x00, 0x0D, 0x0E, 0x0F, 0x1B, 0xFF].all (fun w => (decode ⟨w, ops⟩).toOption.isNone) = true := by decide

/-- No two rows of R88 can be selected by one word. -/
theorem test_table_disjoint :
    opcodeTable.Pairwise (fun r q => (r.pattern ^^^ q.pattern) &&& (r.mask &&& q.mask) ≠ 0) := by decide

theorem test_decodeTableWord :
    decodeTableWord 8 0x0C = some .extract ∧ decodeTableWord 8 0x1B = none ∧
      decodeTableWord 8 0x04 = some (.bits2i 0) := by decide

/-! ### The operations -/

/-- V3. -/
theorem test_b2bits : (after (exec (.b2bits [0xA5, 0x0F]) State.reset)).map (·.res) =
    some (some (.bits [1, 0, 1, 0, 0, 1, 0, 1, 0, 0, 0, 0, 1, 1, 1, 1])) := by decide
/-- V1. -/
theorem test_b2bits_empty : (after (exec (.b2bits []) State.reset)).map (·.res) =
    some (some (.bits [])) := by decide
/-- R113: an open stream is replaced. -/
theorem test_sopen : (after (exec .sopen (State.at 2 s3))).map (·.strm) = some (.opened 0) := by decide
/-- V5, third PULL: the bit of 0x81. -/
theorem test_pull : (after (exec .pull (State.at 2 s3))).map (fun t => (t.res, t.strm)) =
    some (some (.pulled (some 1)), .opened 3) := by decide
/-- V5, fourth PULL: exhaustion. -/
theorem test_pull_exhausted : (after (exec .pull (State.at 3 s3))).map (fun t => (t.res, t.status, t.strm)) =
    some (some (.pulled none), .ok, .opened 3) := by decide
/-- V6. -/
theorem test_bits2i : (after (exec (.bits2i 3) (State.at 0 s3))).map (fun t => (t.res, t.strm)) =
    some (some (.number 5), .opened 3) := by decide
/-- V7. -/
theorem test_bits2i_short : (after (exec (.bits2i 4) (State.at 0 s3))).map (fun t => (t.status, t.res, t.strm)) =
    some (.streamExhausted, none, .opened 3) := by decide
/-- V17. -/
theorem test_i2b : (after (exec (.i2b 0x01020304) State.reset)).map (·.res) =
    some (some (.bytes4 ⟨1, 2, 3, 4⟩)) := by decide
/-- V19a: no sign. -/
theorem test_b2i : (after (exec (.b2i ⟨0x80, 0, 0, 0⟩) State.reset)).map (·.res) =
    some (some (.u32 2147483648)) := by decide
/-- V18. -/
theorem test_b2i_order : (after (exec (.b2i ⟨0xDE, 0xAD, 0xBE, 0xEF⟩) State.reset)).map (·.res) =
    some (some (.u32 3735928559)) := by decide
/-- V10. -/
theorem test_lsbr : [0x00, 0x01, 0xFE, 0xFF, 0x81].map
    (fun v => (after (exec (.lsbr v) State.reset)).bind (·.res)) =
    [some (.bit 0), some (.bit 1), some (.bit 0), some (.bit 1), some (.bit 1)] := by decide
/-- V11, V12. -/
theorem test_lsbw : [(0xFF, 0), (0x10, 1), (0x7F, 0), (0x80, 1)].map
    (fun p => (after (exec (.lsbw p.1 p.2) State.reset)).bind (·.res)) =
    [some (.byte 0xFE), some (.byte 0x11), some (.byte 0x7E), some (.byte 0x81)] := by decide
/-- V13. -/
theorem test_pixr : (after (exec (.pixr 0) s3)).map (·.res) = some (some (.lanes [1, 0, 1])) := by decide
/-- V13b: pixel index NPIX. -/
theorem test_pixr_refused : (after (exec (.pixr 1) s3)).map (fun t => (t.status, t.accesses)) =
    some (.illegalOp, []) := by decide
/-- V13. -/
theorem test_pixw : (after (exec (.pixw 0 [0, 1, 1]) s3)).map (fun t => (t.pixel 0, t.accesses)) =
    some ([0xFE, 0x01, 0x81], [.pixRead 0, .pixWrite 0]) := by decide
/-- V13c: a group that is not of C bits. -/
theorem test_pixw_refused : (after (exec (.pixw 0 [1, 0]) s3)).map (fun t => (t.status, t.pix)) =
    some (.illegalOp, s3.pix) := by decide

/-- V28: 6×1×7, every channel 0x33, payload `[0xFF]`, two pad channels cleared. -/
theorem test_embed : (after (exec .embed (State.withPayload [0xFF] (img 6 1 7 (List.replicate 42 0x33))))).map
    (fun t => (t.status, (List.range 42).map t.pix.read)) =
    some (.ok, List.replicate 31 0x32 ++ List.replicate 9 0x33 ++ [0x32, 0x32]) := by decide +kernel
/-- V24: with payload `[0x00]` an image of 32 channels is too small. -/
theorem test_embed_tooLarge : (after (exec .embed (State.withPayload [0x00] (s32 0x7F)))).map
    (fun t => (t.status, t.pix)) = some (.payloadTooLarge, (s32 0x7F).pix) := by decide +kernel
/-- P4: EXTRACT of the exact fit (CAP = 40). -/
theorem test_extract : (after (exec .extract s40)).map
    (fun t => (t.status, t.res, t.out.map ByteSeq.toList, t.strm)) =
    some (.ok, some (.olen 1), some [0x41], .closed) := by decide +kernel
/-- V30 at CAP = 32 (R187): any set bit among the 32 LSBs gives `NoHiddenData`. -/
theorem test_extract_noHiddenData : (after (exec .extract (s32 0xFF))).map
    (fun t => (t.status, t.res, t.out)) = some (.noHiddenData, none, none) := by decide +kernel

/-! ### Steps and the host -/

/-- V9b, from reset: PULL with no stream open. -/
theorem test_step_pull : (after (step (State.reset.withFetchWord 8 0x03))).map (fun t => (t.status, t.strm)) =
    some (.illegalOp, .closed) := by decide
/-- R165: EMBED from reset, where CAP = 0. -/
theorem test_step_embed : (after (step (State.reset.withFetchWord 8 0x0B))).map (·.status) =
    some .payloadTooLarge := by decide
/-- V42: a reserved word. -/
theorem test_step_reserved : (after (step (State.reset.withFetchWord 8 0x1B))).map (·.status) =
    some .illegalOp := by decide
/-- V19b. -/
theorem test_step_hdrenc : (after (step (State.next (.hdrenc 4294967296) State.reset))).map
    (fun t => (t.status, t.res)) = some (.payloadTooLarge, none) := by decide
/-- U10: reading OUT after reset. -/
theorem test_step_read_out : faultOf (step (State.next (.read (.out 0)) State.reset)) =
    some (.noValue .out) := by decide
/-- R196: the code the host reads from STATUS after reset and after a refusal. -/
theorem test_hostReadStatus :
    hostReadStatus State.reset = 7 ∧ (after (exec .pull s3)).map hostReadStatus = some 5 := by decide
/-- U22: reading OUT at OLEN. -/
theorem test_step_read_out_beyond :
    faultOf (step { State.next (.read (.out 2)) s3 with out := some ⟨2, []⟩ }) = some (.output 2) := by decide
/-- R34: LOADIMG closes the stream. -/
theorem test_step_loadImg : (after (step (State.next (.loadImg 1 1 1 [0x55]) (State.at 1 s3)))).map
    (fun t => (t.pix, t.cap, t.strm)) = some ([(0, 0x55)], 1, .closed) := by decide

/-! ### Witnesses: concrete states and operands that meet each obligation's hypotheses, clause by clause -/

theorem witness_DecodedCommandsHaveTheEncodedWord :
    decode ⟨0x0A, ops⟩ = .ok (.pixw 7 [1, 0]) := by simp [decode, rsvField, opField, decodeOp, ops]

/-- A state whose next action is a legal command. -/
theorem witness_StepRunsTheDecodedCommand :
    (State.next (.command ⟨0x0B, ops⟩) s3).pending = [.command ⟨0x0B, ops⟩] ∧
      decode ⟨0x0B, ops⟩ = .ok .embed := ⟨rfl, by simp [decode, rsvField, opField, decodeOp]⟩

/-- A reserved word; and an inadmissible operation for each row of R90, at the first value out of range. -/
theorem witness_RefusalChangesOnlyStatusAndResult :
    (decode ⟨0x0D, ops⟩ = .error (.op 0xD)) ∧ (decode ⟨0x1B, ops⟩ = .error (.rsv 1)) ∧
      (State.at 0 s3).inadmissible (.bits2i 33) ∧ s3.inadmissible (.bits2i 0) ∧ s3.inadmissible .pull ∧
      s3.inadmissible (.pixr 1) ∧ s3.inadmissible (.pixw 1 [0, 0, 0]) ∧
      s3.inadmissible (.pixw 0 [0, 0]) := by
  refine ⟨?_, ?_, .inl (by decide), .inr rfl, rfl, ?_, .inl (by decide), .inr (by decide)⟩
  · simp [decode, rsvField, opField, decodeOp]
  · simp [decode, rsvField]
  · show s3.w * s3.h ≤ 1; decide

/-- Both sides of each equivalence occur: an admitted and an inadmissible operation. -/
theorem witness_EveryOperationEndsWithItsOwnOutcomes :
    ¬ (State.at 3 s3).inadmissible (.bits2i 32) ∧ (State.at 3 s3).inadmissible (.bits2i 33) :=
  ⟨by rintro (h | h) <;> revert h <;> decide, .inl (by decide)⟩

theorem witness_B2bits : (0 : Nat) < [0xA5#8].length ∧ (7 : Nat) ≤ 7 := by decide

/-- Closed; the last bit; the end of the stream; CAP = 0. -/
theorem witness_PullDeliversTheNextBitOrExhaustion :
    s3.strm = .closed ∧
      ((State.at 2 s3).strm = .opened 2 ∧ 2 < s3.w * s3.h * s3.c) ∧
      ((State.at 3 s3).strm = .opened 3 ∧ 3 = s3.w * s3.h * s3.c) ∧
      ((State.at 0 State.reset).strm = .opened 0 ∧ 0 = State.reset.w * State.reset.h * State.reset.c) := by
  decide

/-- All 32 bits up to the last channel; n = 0 on an exhausted stream; one bit short; n = 33; closed. -/
theorem witness_Bits2iAssemblesExactlyNBits :
    ((32#6).toNat ≤ 32 ∧ (State.at 0 (s32 0)).strm = .opened 0 ∧
        0 + (32#6).toNat ≤ (s32 0).w * (s32 0).h * (s32 0).c) ∧
      ((0#6).toNat ≤ 32 ∧ (State.at 3 s3).strm = .opened 3 ∧ 3 + (0#6).toNat ≤ s3.w * s3.h * s3.c) ∧
      ((1#6).toNat ≤ 32 ∧ (State.at 3 s3).strm = .opened 3 ∧ 3 ≤ s3.w * s3.h * s3.c ∧
        s3.w * s3.h * s3.c - 3 < (1#6).toNat) ∧
      32 < (33#6).toNat ∧ s3.strm = .closed := by decide

/-- A split of all 32 bits, and one with an empty part. -/
theorem witness_Bits2iSplits :
    ((32#6).toNat = (24#6).toNat + (8#6).toNat ∧ (32#6).toNat ≤ 32 ∧
        (State.at 0 (s32 0)).strm = .opened 0 ∧ 0 + (32#6).toNat ≤ (s32 0).w * (s32 0).h * (s32 0).c) ∧
      (32#6).toNat = (0#6).toNat + (32#6).toNat := by decide

theorem witness_PullsEqualOneBits2i :
    (32#6).toNat ≤ 32 ∧ (State.at 0 (s32 0)).strm = .opened 0 ∧
      0 + (32#6).toNat ≤ (s32 0).w * (s32 0).h * (s32 0).c := by decide

/-- The last bit of the stream. -/
theorem witness_StreamOnlyMovesForward :
    Instr.pull ≠ .sopen ∧ (State.at 2 s3).strm = .opened 2 ∧ 2 ≤ s3.w * s3.h * s3.c ∧
      (after (exec .pull (State.at 2 s3))).map (·.strm) = some (.opened 3) := by decide

/-- The image of the 32 header bits of 1, and the bits of its four bytes. -/
theorem witness_I2bAndB2iAreInverse :
    (State.at 0 s40).strm = .opened 0 ∧ 0 + 32 ≤ s40.w * s40.h * s40.c ∧
      (after (exec (.b2bits [0, 0, 0, 1]) s3)).map (·.res) =
        some (some (.bits (List.replicate 31 0 ++ [1]))) ∧
      (List.range 32).map (fun k => (s40.pix.read (0 + k)).extractLsb' 0 1) =
        List.replicate 31 0 ++ [1] := by decide +kernel

/-- The 32 header bits of 1 (V19c) stand in the stream; the first and the last bit index. -/
theorem witness_HeaderBitsRoundTrip :
    (0 : Nat) < 32 ∧ (31 : Nat) < 32 ∧ (State.at 0 s40).strm = .opened 0 ∧
      0 + 32 ≤ s40.w * s40.h * s40.c ∧ (State.at 0 (s32 0)).strm = .opened 0 ∧
      0 + 32 ≤ (s32 0).w * (s32 0).h * (s32 0).c ∧
      (List.range 32).map (fun k => (s40.pix.read (0 + k)).extractLsb' 0 1) =
        bytesToBits (intToBytes 1).toList := by decide +kernel

/-- V13a: C = 3, and the pad lane; C = 1. -/
theorem witness_GroupingPadsTheLastGroupWithZeros :
    0 < 3 ∧ (group 3 [0, 1, 0, 0, 0, 0, 0, 1])[2]? = some [0, 1, 0] ∧ 2 < 3 ∧
      0 < 1 ∧ (group 1 [1])[0]? = some [1] := by decide

/-- The last pixel, its last lane, and the first index that is no pixel. -/
theorem witness_PixrReadsTheLsbOfEveryChannel :
    0 < s3.w * s3.h ∧ 2 < s3.c ∧ s3.w * s3.h ≤ 1 := by decide

/-- The last pixel and lane; a channel before and one behind; an index and a group out of range. -/
theorem witness_PixwReplacesTheLsbsOfOnePixel :
    (s3.pix.wf ∧ 0 < s3.w * s3.h ∧ [0#1, 1#1, 1#1].length = s3.c ∧ 2 < s3.c ∧ s3.pixelBase 0 + s3.c ≤ 3) ∧
      ((s32 0).pix.wf ∧ 31 < (s32 0).w * (s32 0).h ∧ [1#1].length = (s32 0).c ∧ 30 < (s32 0).pixelBase 31) ∧
      s3.w * s3.h ≤ 1 ∧ [0#1, 1#1].length ≠ s3.c := by decide +kernel

theorem witness_PixwReplacesTheLsbsOfOnePixel_runs :
    ∃ t, exec (.pixw 0 [0, 1, 1]) s3 = .next t := ⟨_, exec_pixw_ok (by decide) (by decide)⟩

/-- A PIXW across POS = 1, and a byte write of the last channel: the first and the last position ahead. -/
theorem witness_OpenStreamSeesAWriteAheadOfIt :
    (s3.pix.wf ∧ 0 < s3.w * s3.h ∧ [0#1, 1#1, 1#1].length = s3.c ∧ (State.at 1 s3).strm = .opened 1 ∧
        1 ≤ 1 ∧ 1 ≤ 2 ∧ 2 < s3.w * s3.h * s3.c) ∧
      (State.next (.writePix 2 7) (State.at 1 s3)).pending = [.writePix 2 7] ∧
      (State.next (.writePix 2 7) (State.at 1 s3)).strm = .opened 1 ∧ 2 < s3.w * s3.h * s3.c := by decide

/-- Two images that differ in a passed channel and in an upper bit ahead; a byte write just behind POS; a
PIXW of a pixel that ends at POS = CAP; two groups that differ in the passed lane only. -/
theorem witness_StreamIgnoresWritesBehindIt :
    (let a := State.at 1 s3
     let b := State.at 1 (img 1 1 3 [0x00, 0x02, 0x81])
     a.pix ≠ b.pix ∧ a.w = b.w ∧ a.h = b.h ∧ a.c = b.c ∧ a.strm = .opened 1 ∧ b.strm = .opened 1 ∧
      1 ≤ a.w * a.h * a.c ∧ ∀ k, 1 ≤ k → k < 3 →
        (a.pix.read k).extractLsb' 0 1 = (b.pix.read k).extractLsb' 0 1) ∧
      ((State.next (.writePix 0 7) (State.at 1 s3)).pending = [.writePix 0 7] ∧ s3.pix.wf ∧ 0 < 1 ∧
        1 ≤ s3.w * s3.h * s3.c) ∧
      (0 < s3.w * s3.h ∧ [0#1, 1#1, 1#1].length = s3.c ∧ (State.at 3 s3).strm = .opened 3 ∧
        3 ≤ s3.w * s3.h * s3.c ∧ 0 * s3.c + s3.c ≤ 3) ∧
      ([0#1, 1#1, 1#1].length = s3.c ∧ [1#1, 1#1, 1#1].length = s3.c ∧
        ∀ lane, lane < 3 → 1 ≤ 0 * s3.c + lane →
          [0#1, 1#1, 1#1].getD lane 0 = [1#1, 1#1, 1#1].getD lane 0) := by
  refine ⟨by decide, by decide, by decide, by decide, by decide, ?_⟩
  intro lane h1 h2
  have : lane = 1 ∨ lane = 2 := by omega
  rcases this with rfl | rfl <;> rfl

/-- A position one beyond CAP. -/
theorem witness_PositionsBeyondCapCountAsExhausted :
    (State.at 4 s3).strm = .opened 4 ∧ s3.w * s3.h * s3.c < 4 ∧ 0 < (1#6).toNat ∧ (32#6).toNat ≤ 32 := by
  decide

/-- A length of exactly 2^32; one byte too many for CAP = 32; an empty payload on CAP = 31. -/
theorem witness_EmbedOfATooLargePayloadChangesNothing :
    4294967296 ≤ ({ s3 with inp := ⟨4294967296, []⟩ } : State).inp.len ∧
      (s32 0).w * (s32 0).h * (s32 0).c < (4 + (State.withPayload [0] (s32 0)).inp.len) * 8 ∧
      (img 31 1 1 []).w * (img 31 1 1 []).h * (img 31 1 1 []).c < (4 + (img 31 1 1 []).inp.len) * 8 := by
  decide

theorem witness_EmbedAcceptsUpToTheCapacity :
    ({ s3 with inp := ⟨4294967295, []⟩ } : State).inp.len < 4294967296 ∧ (s32 0).inp.len < 4294967296 := by
  decide

/-- The exact fit; and V28, with a payload bit, pad channels (k = 40, 41) and G×C = CAP. -/
theorem witness_EmbedWritesTheFrameIntoTheLsbs :
    ((s32 0x7F).pix.wf ∧ (s32 0x7F).inp.len < 4294967296 ∧
        (4 + (s32 0x7F).inp.len) * 8 ≤ (s32 0x7F).w * (s32 0x7F).h * (s32 0x7F).c) ∧
      (let s := State.withPayload [0xFF] (img 6 1 7 (List.replicate 42 0x33))
       s.pix.wf ∧ s.inp.len < 4294967296 ∧ (4 + s.inp.len) * 8 ≤ s.w * s.h * s.c ∧
        0 < s.inp.len ∧ (4 + s.inp.len) * 8 ≤ 41 ∧ 41 < 6 * s.c ∧ 6 * s.c ≤ 42) := by decide +kernel

/-- The exact fit of P4: payload `[0x41]` in CAP = 40. -/
theorem embed_s40_ok : ∃ t, exec .embed (State.withPayload [0x41] s40) = .next t ∧ t.status = .ok :=
  ⟨_, exec_embed_ok (by decide +kernel) (by decide +kernel), rfl⟩

theorem witness_EmbedIsIdempotent : (State.withPayload [0x41] s40).pix.wf ∧
    ∃ t, exec .embed (State.withPayload [0x41] s40) = .next t ∧ t.status = .ok :=
  ⟨by decide +kernel, embed_s40_ok⟩

theorem witness_EmbeddingByHandAgrees :
    (State.withPayload [0x41] s40).inp.len < 4294967296 ∧
      (4 + (State.withPayload [0x41] s40).inp.len) * 8 ≤ s40.w * s40.h * s40.c := by decide

theorem witness_ExtractOfASmallImageIsTruncated :
    (img 31 1 1 []).w * (img 31 1 1 []).h * (img 31 1 1 []).c < 32 ∧
      State.reset.w * State.reset.h * State.reset.c < 32 := by decide

/-- The declared length of CAP = 32 with its last header bit set is 1: 40 > 32. -/
def s32odd : State := img 32 1 1 (List.replicate 31 0 ++ [1])

theorem declared_s32odd :
    ∑ k ∈ Finset.range 32, ((s32odd.pix.read k).extractLsb' 0 1).toNat * 2 ^ (31 - k) = 1 := by
  decide +kernel

theorem witness_ExtractOfAnOversizedFrameIsNoHiddenData :
    32 ≤ s32odd.w * s32odd.h * s32odd.c ∧
      s32odd.w * s32odd.h * s32odd.c < 32 + 8 * ∑ k ∈ Finset.range 32,
        ((s32odd.pix.read k).extractLsb' 0 1).toNat * 2 ^ (31 - k) := by
  rw [declared_s32odd]; decide

theorem declared_s40 :
    1 = ∑ k ∈ Finset.range 32, ((s40.pix.read k).extractLsb' 0 1).toNat * 2 ^ (31 - k) := by
  decide +kernel

theorem declared_s32 :
    0 = ∑ k ∈ Finset.range 32, (((s32 0).pix.read k).extractLsb' 0 1).toNat * 2 ^ (31 - k) := by
  decide +kernel

/-- One image for each outcome: CAP = 3; CAP = 32 with L = 1; the exact fit. -/
theorem witness_ExtractOutcomeIsDecidedByTheDeclaredLength :
    s3.w * s3.h * s3.c < 32 ∧
      (32 ≤ s32odd.w * s32odd.h * s32odd.c ∧ s32odd.w * s32odd.h * s32odd.c < 32 + 8 * 1 ∧
        1 = ∑ k ∈ Finset.range 32, ((s32odd.pix.read k).extractLsb' 0 1).toNat * 2 ^ (31 - k)) ∧
      (32 + 8 * 1 ≤ s40.w * s40.h * s40.c ∧
        1 = ∑ k ∈ Finset.range 32, ((s40.pix.read k).extractLsb' 0 1).toNat * 2 ^ (31 - k)) :=
  ⟨by decide, ⟨by decide, by decide, declared_s32odd.symm⟩, by decide, declared_s40⟩

/-- The exact fit with one byte, and with none. -/
theorem witness_ExtractRecoversTheDeclaredBytes :
    32 + 8 * 1 ≤ s40.w * s40.h * s40.c ∧ 32 + 8 * 0 ≤ (s32 0).w * (s32 0).h * (s32 0).c := by decide

/-- An image and the same with the upper bits of a header channel and a channel beyond the frame changed. -/
theorem witness_ExtractDependsOnlyOnTheDeclaredLsbs :
    let a := img 33 1 1 (List.replicate 33 0)
    let b := img 33 1 1 (0xFE :: List.replicate 31 0 ++ [1])
    a.pix ≠ b.pix ∧ a.w = b.w ∧ a.h = b.h ∧ a.c = b.c ∧
      ∑ k ∈ Finset.range 32, ((a.pix.read k).extractLsb' 0 1).toNat * 2 ^ (31 - k) = 0 ∧
      ∀ k, k < 32 → (a.pix.read k).extractLsb' 0 1 = (b.pix.read k).extractLsb' 0 1 := by decide +kernel

theorem witness_ExtractOfAnEvenImageIsTheEmptyPayload :
    32 ≤ (s32 0xFE).w * (s32 0xFE).h * (s32 0xFE).c ∧
      ∀ k, k < 32 → ((s32 0xFE).pix.read k).extractLsb' 0 1 = 0#1 := by decide +kernel

/-- The exact fit with one byte, and the empty payload. -/
theorem witness_ExtractOfEmbedIsThePayload :
    ((State.withPayload [0x41] s40).pix.wf ∧ (State.withPayload [0x41] s40).inp.len < 4294967296 ∧
        32 + 8 * (State.withPayload [0x41] s40).inp.len ≤ s40.w * s40.h * s40.c) ∧
      (s32 1).pix.wf ∧ 32 + 8 * (s32 1).inp.len ≤ (s32 1).w * (s32 1).h * (s32 1).c := by decide +kernel

theorem witness_ExtractSurvivesChangesOutsideTheFrame :
    ∃ t, (State.withPayload [0x41] s40).pix.wf ∧ exec .embed (State.withPayload [0x41] s40) = .next t ∧
      t.status = .ok ∧ t.w = t.w ∧ t.h = t.h ∧ t.c = t.c := by
  obtain ⟨t, h, hs⟩ := embed_s40_ok
  exact ⟨t, by decide +kernel, h, hs, rfl, rfl, rfl⟩

theorem witness_HostDrivenExtractionAgrees :
    ∃ t o, exec .extract s40 = .next t ∧ t.status = .ok ∧ t.out = some o ∧ 0 < o.len :=
  ⟨_, _, exec_extract_ok (by decide +kernel), rfl, rfl, by decide +kernel⟩

/-- A command that writes PIX, on a canonical memory. -/
theorem witness_NoCommandChangesUpperChannelBits :
    (State.withPayload [0x41] s40).pix.wf ∧ ∃ t, exec .embed (State.withPayload [0x41] s40) = .next t :=
  ⟨by decide +kernel, let ⟨t, h, _⟩ := embed_s40_ok; ⟨t, h⟩⟩

theorem witness_CommandsChangeOnlyTheirOwnMemories :
    ∃ t, exec .pull (State.at 2 s3) = .next t := ⟨_, exec_pull_bit rfl (by decide)⟩

/-- Each of the four failures occurs. -/
theorem witness_FailuresLeaveTheImageAndTheirNamedState :
    (∃ t, exec .extract (s32 0xFF) = .next t ∧ t.status = .noHiddenData) ∧
      (∃ t, exec .extract s3 = .next t ∧ t.status = .truncated) ∧
      (∃ t, exec (.bits2i 4) (State.at 0 s3) = .next t ∧ t.status = .streamExhausted) ∧
      (∃ t, exec .pull s3 = .next t ∧ t.status = .illegalOp) ∧
      (∃ t, exec .embed s3 = .next t ∧ t.status = .payloadTooLarge) :=
  ⟨⟨_, exec_extract_noHiddenData (by decide) (by decide +kernel), rfl⟩,
    ⟨_, exec_extract_truncated (by decide), rfl⟩,
    ⟨_, exec_bits2i_short (by decide) rfl (by decide), rfl⟩, ⟨_, exec_refused rfl, rfl⟩,
    ⟨_, exec_embed_tooLarge (.inr (by decide)), rfl⟩⟩

/-- An outcome that is OK and one that is not. -/
theorem witness_ResultsAreTypedByTheOperation :
    (∃ t, exec (.bits2i 3) (State.at 0 s3) = .next t ∧ t.status = .ok) ∧
      ∃ t, exec .pull s3 = .next t ∧ t.status ≠ .ok :=
  ⟨⟨_, exec_bits2i_ok (by decide) rfl (by decide), rfl⟩, ⟨_, exec_refused rfl, by decide⟩⟩

/-- Two states that differ in every output register. -/
theorem witness_OutcomeDependsOnlyOnTheInputs :
    let a := State.at 2 s3
    let b := { State.at 2 s3 with status := .ok, res := some (.bit 1), out := some ⟨0, []⟩ }
    a ≠ b ∧ a.w = b.w ∧ a.h = b.h ∧ a.c = b.c ∧ a.pix = b.pix ∧ a.inp = b.inp ∧ a.strm = b.strm := by decide

theorem witness_NoCommandAddressesOutsideItsMemories :
    ∃ t, exec (.pixr 0) s3 = .next t := ⟨_, exec_pixr_ok (by decide)⟩

/-- A state off the reset state: an image, an open stream at its end, a command pending. -/
theorem witness_EveryStepKeepsTheInvariant :
    (State.next .rdbyte (State.at 3 s3)).inv ∧
      (after (step (State.next .rdbyte (State.at 3 s3)))).map (·.status) = some .streamExhausted := by
  refine ⟨⟨by decide, by decide, by rintro o ⟨⟩, ?_, by decide, by decide⟩, by decide⟩
  rintro pos ⟨⟩; decide

theorem witness_ResetClearsTheBlockAndKeepsTheHostState :
    (State.next .reset s3).pending = [.reset] := rfl

/-- LOADIMG of its own geometry, and of no pixels; LOADPAY; the last channel of PIX. -/
theorem witness_HostWritesReachTheirMemories :
    [1#8, 2, 3].length = 1 * 1 * 3 ∧ ([] : List Byte).length = 0 * 5 * 3 ∧ s3.pix.wf ∧
      2 < s3.w * s3.h * s3.c ∧
      (State.next (.loadImg 1 1 3 [1, 2, 3]) s3).pending = [.loadImg 1 1 3 [1, 2, 3]] ∧
      (State.next (.loadPay [1]) s3).pending = [.loadPay [1]] ∧
      (State.next (.writePix 2 7) s3).pending = [.writePix 2 7] := by decide

/-- Registers with no value and with one; the last byte of OUT and of PIX. -/
theorem witness_HostReadsChangeNothingAndFaultOnNoValue :
    (State.next (.read .res) s3).res = none ∧ (State.next (.read (.out 0)) s3).out = none ∧
      ({ State.next (.read .res) s3 with res := some (.bit 1) } : State).res = some (.bit 1) ∧
      ({ State.next (.read (.out 1)) s3 with out := some ⟨2, []⟩ } : State).out = some ⟨2, []⟩ ∧
      (1 : Nat) < (⟨2, []⟩ : ByteSeq).len ∧ (⟨2, []⟩ : ByteSeq).len ≤ 2 ∧
      2 < s3.w * s3.h * s3.c ∧ s3.w * s3.h * s3.c ≤ 3 ∧
      (State.next (.read (.out 2)) s3).pending = [.read (.out 2)] ∧
      (State.next (.read (.pix 3)) s3).pending = [.read (.pix 3)] ∧
      (State.next (.read .status) s3).pending = [.read .status] ∧
      (after (step (State.next (.read (.pix 2)) s3))).isSome = true := by decide

theorem witness_PseudoOperationsExpand :
    (State.next (.hdrenc 4294967296) s3).pending = [.hdrenc 4294967296] ∧ 4294967296 ≤ 4294967296 ∧
      (State.next (.hdrenc 4294967295) s3).pending = [.hdrenc 4294967295] ∧ 4294967295 < 4294967296 ∧
      (State.next .hdrdec s3).pending = [.hdrdec] ∧ (State.next .rdbyte s3).pending = [.rdbyte] := by decide

end Sys2Proof.Tests
end

section
/-! The state's rules: each named update keeps the invariant of `10_state.md`, under the condition the
update's own argument has to meet. -/

namespace Sys2Proof.Machine

section
variable {s : State} (hs : s.inv)
include hs

/-! ### What the invariant says of PIX and the stream -/

theorem State.pix_wf_of_inv : s.pix.wf := by
  obtain ⟨⟨hwf, -⟩, -⟩ := hs
  exact hwf

theorem State.pix_below_of_inv : s.pix.below s.cap := by
  obtain ⟨⟨-, hbelow⟩, -⟩ := hs
  exact hbelow

theorem State.pos_le_of_inv {pos : Nat} (hstrm : s.strm = .opened pos) : pos ≤ s.cap := by
  obtain ⟨-, -, -, hcap, -⟩ := hs
  exact hcap pos hstrm

/-! ### Updates of one component -/

theorem State.inv_logAll (l : List Access) : (s.logAll l).inv := hs

theorem State.inv_pop (rest : List HostAction) : (s.pop rest).inv := hs

theorem State.inv_beginCommand : s.beginCommand.inv := hs

theorem State.inv_setPix {m : Memory} (hm : m.wf) (hb : m.below s.cap) : (s.setPix m).inv := by
  obtain ⟨-, hrest⟩ := hs
  exact ⟨⟨hm, hb⟩, hrest⟩

theorem State.inv_setOut {o : Option ByteSeq}
    (ho : ∀ b, o = some b → b.wf ∧ b.len < Config.lengthLimit) : (s.setOut o).inv := by
  obtain ⟨hpix, hinp, -, hrest⟩ := hs
  exact ⟨hpix, hinp, ho, hrest⟩

theorem State.inv_setStrm_closed : (s.setStrm .closed).inv := by
  obtain ⟨hpix, hinp, hout, -, hrest⟩ := hs
  exact ⟨hpix, hinp, hout, nofun, hrest⟩

theorem State.inv_setStrm_opened {pos : Nat} (hpos : pos ≤ s.cap) :
    (s.setStrm (.opened pos)).inv := by
  obtain ⟨hpix, hinp, hout, -, hrest⟩ := hs
  refine ⟨hpix, hinp, hout, ?_, hrest⟩
  rintro _ ⟨⟩
  exact hpos

/-! ### The ways a command ends -/

theorem State.inv_finish (v : Option ResVal) : (s.finish v).inv := by
  obtain ⟨hpix, hinp, hout, hstrm, -⟩ := hs
  exact ⟨hpix, hinp, hout, hstrm, ⟨rfl, rfl, rfl⟩, fun h => absurd rfl h⟩

theorem State.inv_raise (k : Status) : (s.raise k).inv := by
  obtain ⟨hpix, hinp, hout, hstrm, -⟩ := hs
  exact ⟨hpix, hinp, hout, hstrm, ⟨rfl, rfl, rfl⟩, fun _ => rfl⟩

theorem State.inv_refuse : s.refuse.inv := by
  obtain ⟨hpix, hinp, hout, hstrm, hregs, -⟩ := hs
  exact ⟨hpix, hinp, hout, hstrm, hregs, fun _ => rfl⟩

theorem State.inv_raiseExtract (k : Status) : (s.raiseExtract k).inv :=
  State.inv_raise (State.inv_setStrm_closed (State.inv_setOut (o := none) hs nofun)) k

/-! ### The memories the two sequencers and PIXW leave -/

/-- A pixel write of an existing pixel stays inside CAP (R57). -/
theorem State.inv_setPix_pixw {i : Nat} {g : List Bit} (hi : i < s.npix) (hg : g.length = s.c) :
    (s.setPix (s.pix.writeRun (s.pixelBase i) (List.zipWith lsbReplace (s.pixel i) g))).inv := by
  refine State.inv_setPix hs (Memory.writeRun_wf (State.pix_wf_of_inv hs) _ _)
    (Memory.writeRun_below (State.pix_below_of_inv hs) ?_)
  simpa [hg] using s.pixel_end_le hi

/-- A frame that fits is written inside CAP (R163). -/
theorem State.inv_setPix_embeddedPix (hfit : required s.plen ≤ s.cap) :
    (s.setPix s.embeddedPix).inv := by
  obtain ⟨hwf, -⟩ := embeddedPix_read hfit (State.pix_wf_of_inv hs)
  exact State.inv_setPix hs hwf (embeddedPix_below hfit (State.pix_below_of_inv hs))

theorem State.inv_setOut_extractedOut : (s.setOut (some s.extractedOut)).inv := by
  refine State.inv_setOut hs ?_
  rintro _ ⟨⟩
  exact ⟨s.extractedOut_wf, s.declaredLength.isLt⟩

end

/-! ### Commands and host actions -/

/-- Every way an operation can end keeps the invariant. -/
theorem Ends.inv {i : Instr} {s t : State} (he : Ends i s t) (hs : s.inv) : t.inv := by
  cases he with
  | refused => exact State.inv_refuse hs
  | sopen => exact State.inv_finish (State.inv_setStrm_opened hs (Nat.zero_le _)) _
  | pullBit _ hpos =>
    exact State.inv_finish (State.inv_setStrm_opened (State.inv_logAll hs _) hpos) _
  | @bits2iOk _ n pos _ hstrm hfit =>
    have hpos : pos ≤ s.cap := State.pos_le_of_inv hs hstrm
    have hend : pos + n.toNat ≤ s.cap := by omega
    exact State.inv_finish (State.inv_setStrm_opened (State.inv_logAll hs _) hend) _
  | bits2iShort => exact State.inv_raise (State.inv_setStrm_opened hs le_rfl) _
  | pixr => exact State.inv_finish (State.inv_logAll hs _) _
  | pixw hi hg => exact State.inv_finish (State.inv_logAll (State.inv_setPix_pixw hs hi hg) _) _
  | embedTooLarge => exact State.inv_raise hs _
  | embedOk _ hfit =>
    exact State.inv_finish (State.inv_logAll (State.inv_setPix_embeddedPix hs hfit) _) _
  | extractTruncated => exact State.inv_raiseExtract hs _
  | extractNoHiddenData => exact State.inv_raiseExtract (State.inv_logAll hs _) _
  | extractOk =>
    exact State.inv_finish (State.inv_logAll
      (State.inv_setStrm_closed (State.inv_setOut_extractedOut hs)) _) _
  | b2bits | pullExhausted | i2b | b2i | lsbr | lsbw => exact State.inv_finish hs _

theorem runCommand_inv {cmd : Command} {s t : State} (hs : s.inv) (h : runCommand cmd s = .next t) :
    t.inv := by
  unfold runCommand at h
  split at h
  · cases h
    exact State.inv_refuse (State.inv_beginCommand hs)
  · exact (ends_of_exec h).inv (State.inv_beginCommand hs)

theorem loadImg_inv {w h c : Nat} {pixels : List Byte} {s t : State} (hs : s.inv)
    (hload : loadImg w h c pixels s = .next t) : t.inv := by
  obtain ⟨-, hinp, hout, -, hrest⟩ := hs
  unfold loadImg at hload
  split at hload
  next hlen =>
    cases hload
    have hbelow : (Memory.ofBytes 0 pixels).below (w * h * c) := by
      simpa [hlen] using Memory.ofBytes_below 0 pixels
    exact ⟨⟨Memory.ofBytes_wf 0 pixels, hbelow⟩, hinp, hout, nofun, hrest⟩
  next => cases hload

theorem loadPay_inv {s : State} (hs : s.inv) (bytes : List Byte) : (loadPay bytes s).inv := by
  obtain ⟨hpix, -, hrest⟩ := hs
  exact ⟨hpix, ByteSeq.ofList_wf bytes, hrest⟩

theorem hostWritePix_inv {k : Nat} {v : Byte} {s t : State} (hs : s.inv)
    (h : hostWritePix k v s = .next t) : t.inv := by
  unfold hostWritePix at h
  split at h
  next hk =>
    cases h
    exact State.inv_setPix hs (Memory.write_wf (State.pix_wf_of_inv hs) k v)
      (Memory.write_below (State.pix_below_of_inv hs) hk v)
  next => cases h

/-- How a host read of a value answers: it goes on in the same state, or ends in the fault of having no
value to read (R34, R21). -/
def readAnswer {α : Type} (r : Except Fault α) (s : State) : Result :=
  match r with
  | .ok _ => .next s
  | .error f => .fault f

theorem readAnswer_next {α : Type} {r : Except Fault α} {s t : State}
    (h : readAnswer r s = .next t) : t = s := by
  cases r with
  | ok v => cases h; rfl
  | error f => cases h

theorem hostRead_pix (k : Nat) (s : State) :
    hostRead (.pix k) s = readAnswer (hostReadPix k s) s := by
  rw [hostRead]
  cases hostReadPix k s <;> rfl

theorem hostRead_out (j : Nat) (s : State) :
    hostRead (.out j) s = readAnswer (hostReadOut j s) s := by
  rw [hostRead]
  cases hostReadOut j s <;> rfl

theorem hostRead_res (s : State) : hostRead .res s = readAnswer (hostReadRes s) s := by
  rw [hostRead]
  cases hostReadRes s <;> rfl

/-- A host read that goes on leaves the state as it is (R34). -/
theorem hostRead_next {what : ReadTarget} {s t : State} (h : hostRead what s = .next t) : t = s := by
  cases what with
  | pix k => exact readAnswer_next (hostRead_pix k s ▸ h)
  | out j => exact readAnswer_next (hostRead_out j s ▸ h)
  | res => exact readAnswer_next (hostRead_res s ▸ h)
  | status => cases h; rfl

theorem resetEvent_inv {s : State} (hs : s.inv) : (resetEvent s).inv := by
  obtain ⟨hpix, hinp, -⟩ := hs
  exact ⟨hpix, hinp, nofun, nofun, ⟨rfl, rfl, rfl⟩, fun _ => rfl⟩

theorem pseudoHdrenc_inv {l : Nat} {s t : State} (hs : s.inv) (h : pseudoHdrenc l s = .next t) :
    t.inv := by
  unfold pseudoHdrenc at h
  split at h
  · cases h
    exact State.inv_raise (State.inv_beginCommand hs) _
  · exact runCommand_inv hs h

/-- Every action of the host keeps the invariant. -/
theorem perform_inv {a : HostAction} {s t : State} (hs : s.inv) (h : perform a s = .next t) :
    t.inv := by
  cases a with
  | command cmd => exact runCommand_inv hs h
  | loadImg w ht c pixels => exact loadImg_inv hs h
  | loadPay bytes => cases h; exact loadPay_inv hs bytes
  | writePix k v => exact hostWritePix_inv hs h
  | read what => exact hostRead_next h ▸ hs
  | reset => cases h; exact resetEvent_inv hs
  | hdrenc l => exact pseudoHdrenc_inv hs h
  | hdrdec => exact runCommand_inv (cmd := encode (.bits2i 32)) hs h
  | rdbyte => exact runCommand_inv (cmd := encode (.bits2i 8)) hs h

/-! ### One step -/

/-- A step with nothing pending stays where it is (log 2). -/
theorem step_idle {s : State} (hp : s.pending = []) : step s = .next s := by
  rw [step, hp]

/-- A step performs the action that is pending first. -/
theorem step_pending {s : State} {a : HostAction} {rest : List HostAction}
    (hp : s.pending = a :: rest) : step s = perform a (s.pop rest) := by
  rw [step, hp]

/-- Settles O47: the invariant is kept by whichever action the step performs (`perform_inv`), and for a
command by every way of `Ends`. -/
theorem everyStepKeepsTheInvariant : Obligations.EveryStepKeepsTheInvariant := by
  unfold Obligations.EveryStepKeepsTheInvariant
  intro s t hs h
  cases hp : s.pending with
  | nil =>
    rw [step_idle hp] at h
    cases h
    exact hs
  | cons a rest =>
    rw [step_pending hp] at h
    exact perform_inv (State.inv_pop hs rest) h

/-- Settles O48: at reset the memories and registers are empty and the stream is closed. -/
theorem resetHasTheInvariant : Obligations.ResetHasTheInvariant := by
  unfold Obligations.ResetHasTheInvariant
  have hpix : State.reset.pix.wf ∧ State.reset.pix.below State.reset.cap := ⟨Memory.wf_nil, nofun⟩
  have hinp : State.reset.inp.wf := ⟨Memory.wf_nil, nofun⟩
  exact ⟨hpix, hinp, nofun, nofun, ⟨rfl, rfl, rfl⟩, fun _ => rfl⟩

end Sys2Proof.Machine
end

section
/-! What an operation leaves unchanged (`10_state.md` R30 to R32), what it puts in RES (R28), and what its
outcome depends on (R38), each read off the ways of `Ends`. -/

namespace Sys2Proof.Machine

/-! ### Frames -/

section
variable {i : Instr} {s t : State} (he : Ends i s t)
include he

/-- No operation changes the geometry, the payload or the host's queue (R24, R31, log 2). -/
theorem Ends.host_frame :
    t.w = s.w ∧ t.h = s.h ∧ t.c = s.c ∧ t.inp = s.inp ∧ t.pending = s.pending := by
  cases he <;> exact ⟨rfl, rfl, rfl, rfl, rfl⟩

/-- Only PIXW and EMBED write PIX (R30). -/
theorem Ends.pix_frame (hpixw : ∀ p g, i ≠ .pixw p g) (hembed : i ≠ .embed) : t.pix = s.pix := by
  cases he with
  | pixw => exact absurd rfl (hpixw _ _)
  | embedOk => exact absurd rfl hembed
  | _ => rfl

/-- Only EXTRACT writes OUT (R32). -/
theorem Ends.out_frame (hextract : i ≠ .extract) : t.out = s.out := by
  cases he with
  | extractTruncated | extractNoHiddenData | extractOk => exact absurd rfl hextract
  | _ => rfl

/-- Only the stream operations and EXTRACT write STRM (R26). -/
theorem Ends.strm_frame (hsopen : i ≠ .sopen) (hpull : i ≠ .pull) (hbits : ∀ n, i ≠ .bits2i n)
    (hextract : i ≠ .extract) : t.strm = s.strm := by
  cases he with
  | sopen => exact absurd rfl hsopen
  | pullBit | pullExhausted => exact absurd rfl hpull
  | bits2iOk | bits2iShort => exact absurd rfl (hbits _)
  | extractTruncated | extractNoHiddenData | extractOk => exact absurd rfl hextract
  | _ => rfl

end

/-- Settles O42: the frames of `Ends`, one for each memory. -/
theorem commandsChangeOnlyTheirOwnMemories : Obligations.CommandsChangeOnlyTheirOwnMemories := by
  unfold Obligations.CommandsChangeOnlyTheirOwnMemories
  intro i s t h
  have he := ends_of_exec h
  obtain ⟨hw, hh, hc, hinp, hpending⟩ := he.host_frame
  exact ⟨hw, hh, hc, hinp, hpending, he.pix_frame, he.out_frame, he.strm_frame⟩

/-! ### Results -/

/-- Up to 32 bits assemble to a number below 2^n (R117). -/
theorem bitsToInt_lt {l : List Bit} (h : l.length ≤ 32) : (bitsToInt l).toNat < 2 ^ l.length := by
  rw [toNat_bitsToInt h]
  exact bitsNat_lt l

/-- Settles O44: on the ways of `Ends` that are not OK RES is emptied, on the others it holds the value the
operation returns. -/
theorem resultsAreTypedByTheOperation : Obligations.ResultsAreTypedByTheOperation := by
  unfold Obligations.ResultsAreTypedByTheOperation
  intro i s t h
  have he := ends_of_exec h
  cases he with
  | refused | bits2iShort | embedTooLarge | extractTruncated | extractNoHiddenData =>
    exact ⟨fun _ => rfl, nofun⟩
  | b2bits => exact ⟨fun h => absurd rfl h, fun _ => ⟨_, rfl, length_bytesToBits _⟩⟩
  | pullBit => exact ⟨fun h => absurd rfl h, fun _ => .inl ⟨_, rfl⟩⟩
  | pullExhausted => exact ⟨fun h => absurd rfl h, fun _ => .inr rfl⟩
  | @bits2iOk _ n pos hn =>
    have hlt := bitsToInt_lt (l := s.streamBits pos n.toNat) (by simpa using hn)
    rw [State.length_streamBits] at hlt
    exact ⟨fun h => absurd rfl h, fun _ => ⟨_, rfl, hlt⟩⟩
  | pixr => exact ⟨fun h => absurd rfl h, fun _ => ⟨_, rfl, by simp⟩⟩
  | extractOk =>
    have hlen : BitVec.ofNat 32 s.extractedOut.len = s.declaredLength := by
      simp [State.extractedOut]
    exact ⟨fun h => absurd rfl h, fun _ => ⟨_, rfl, by rw [hlen]; rfl, s.declaredLength.isLt⟩⟩
  | i2b | b2i | lsbr | lsbw => exact ⟨fun h => absurd rfl h, fun _ => ⟨_, rfl⟩⟩
  | sopen | pixw | embedOk => exact ⟨fun h => absurd rfl h, fun _ => rfl⟩

/-! ### Dependence on the inputs -/

/-- Two states agree on the inputs that every command reads (R38). -/
structure State.SameInputs (s1 s2 : State) : Prop where
  w : s1.w = s2.w
  h : s1.h = s2.h
  c : s1.c = s2.c
  pix : s1.pix = s2.pix
  inp : s1.inp = s2.inp

/-- Two states agree on what operation i answers with: STATUS, RES, PIX, and OUT and STRM where it writes
them (R38). -/
structure State.SameOutcome (i : Instr) (t1 t2 : State) : Prop where
  status : t1.status = t2.status
  res : t1.res = t2.res
  pix : t1.pix = t2.pix
  out : i = .extract → t1.out = t2.out
  strm : i = .sopen ∨ i = .pull ∨ (∃ n, i = .bits2i n) ∨ i = .extract → t1.strm = t2.strm

namespace State.SameInputs

variable {s1 s2 : State} (hin : State.SameInputs s1 s2)
include hin

theorem npix : s1.npix = s2.npix := by simp only [State.npix, hin.w, hin.h]

theorem cap : s1.cap = s2.cap := by simp only [State.cap, hin.w, hin.h, hin.c]

theorem plen : s1.plen = s2.plen := by simp only [State.plen, hin.inp]

theorem pixelBase (i : Nat) : s1.pixelBase i = s2.pixelBase i := by
  simp only [State.pixelBase, hin.c]

theorem pixel (i : Nat) : s1.pixel i = s2.pixel i := by
  simp only [State.pixel, hin.c, hin.pix, hin.pixelBase]

theorem streamBit (k : Nat) : s1.streamBit k = s2.streamBit k := by
  simp only [State.streamBit, hin.pix]

theorem streamBits (pos n : Nat) : s1.streamBits pos n = s2.streamBits pos n :=
  State.streamBits_congr hin.pix pos n

theorem declaredLength : s1.declaredLength = s2.declaredLength := by
  simp only [State.declaredLength, hin.streamBits]

theorem extractedOut : s1.extractedOut = s2.extractedOut := by
  simp only [State.extractedOut, State.streamPayload, State.streamByte, hin.declaredLength,
    hin.streamBits]

theorem embeddedPix : s1.embeddedPix = s2.embeddedPix := by
  simp only [State.embeddedPix, State.frame, hin.c, hin.pix, hin.inp, hin.plen]

/-- Admission reads the geometry, and of PULL and BITS2I the stream (R90). -/
theorem inadmissible {i : Instr} (hstrm : i = .pull ∨ (∃ n, i = .bits2i n) → s1.strm = s2.strm)
    (h : s1.inadmissible i) : s2.inadmissible i := by
  cases i with
  | pull => exact (hstrm (.inl rfl)).symm.trans h
  | bits2i n => exact h.imp_right (hstrm (.inr ⟨n, rfl⟩)).symm.trans
  | pixr k => exact hin.npix.symm.trans_le h
  | pixw k g => exact h.imp hin.npix.symm.trans_le (fun hg => hin.c ▸ hg)
  | _ => exact h

end State.SameInputs

/-- Whichever way an operation ends on one state, on a state with the same inputs it ends with the same
outcome. -/
theorem Ends.sameOutcome {i : Instr} {s1 s2 t1 : State} (he : Ends i s1 t1)
    (hin : State.SameInputs s1 s2)
    (hstrm : i = .pull ∨ (∃ n, i = .bits2i n) → s1.strm = s2.strm) :
    ∃ t2, exec i s2 = .next t2 ∧ State.SameOutcome i t1 t2 := by
  cases he with
  | refused h =>
    refine ⟨_, exec_refused (hin.inadmissible hstrm h), rfl, rfl, hin.pix, ?_, ?_⟩
    · rintro rfl; exact h.elim
    · rintro (rfl | rfl | hn | rfl)
      · exact h.elim
      · exact hstrm (.inl rfl)
      · exact hstrm (.inr hn)
      · exact h.elim
  | b2bits => exact ⟨_, exec_b2bits _ _, rfl, rfl, hin.pix, nofun, by simp⟩
  | sopen => exact ⟨_, exec_sopen _, rfl, rfl, hin.pix, nofun, fun _ => rfl⟩
  | @pullBit _ pos hs h =>
    have hs2 : s2.strm = .opened pos := (hstrm (.inl rfl)).symm.trans hs
    have hres := congrArg (fun b => some (ResVal.pulled (some b))) (hin.streamBit pos)
    exact ⟨_, exec_pull_bit hs2 (hin.cap ▸ h), rfl, hres, hin.pix, nofun, fun _ => rfl⟩
  | @pullExhausted _ pos hs h =>
    have hs12 := hstrm (.inl rfl)
    exact ⟨_, exec_pull_exhausted (hs12.symm.trans hs) (hin.cap ▸ h), rfl, rfl, hin.pix, nofun,
      fun _ => hs12⟩
  | @bits2iOk _ n pos hn hs h =>
    have hs2 : s2.strm = .opened pos := (hstrm (.inr ⟨n, rfl⟩)).symm.trans hs
    have hres := congrArg (fun l => some (ResVal.number (bitsToInt l))) (hin.streamBits pos n.toNat)
    exact ⟨_, exec_bits2i_ok hn hs2 (hin.cap ▸ h), rfl, hres, hin.pix, nofun, fun _ => rfl⟩
  | @bits2iShort _ n pos hn hs h =>
    have hs2 : s2.strm = .opened pos := (hstrm (.inr ⟨n, rfl⟩)).symm.trans hs
    exact ⟨_, exec_bits2i_short hn hs2 (hin.cap ▸ h), rfl, rfl, hin.pix, nofun,
      fun _ => congrArg Stream.opened hin.cap⟩
  | i2b => exact ⟨_, exec_i2b _ _, rfl, rfl, hin.pix, nofun, by simp⟩
  | b2i => exact ⟨_, exec_b2i _ _, rfl, rfl, hin.pix, nofun, by simp⟩
  | lsbr => exact ⟨_, exec_lsbr _ _, rfl, rfl, hin.pix, nofun, by simp⟩
  | lsbw => exact ⟨_, exec_lsbw _ _ _, rfl, rfl, hin.pix, nofun, by simp⟩
  | @pixr _ k h =>
    have hres := congrArg (fun p => some (ResVal.lanes (p.map lsb))) (hin.pixel k)
    exact ⟨_, exec_pixr_ok (hin.npix ▸ h), rfl, hres, hin.pix, nofun, by simp⟩
  | @pixw _ k g h hg =>
    refine ⟨_, exec_pixw_ok (hin.npix ▸ h) (hg.trans hin.c), rfl, rfl, ?_, nofun, by simp⟩
    simp [hin.pix, hin.pixel, hin.pixelBase]
  | embedTooLarge h =>
    exact ⟨_, exec_embed_tooLarge (hin.plen ▸ hin.cap ▸ h), rfl, rfl, hin.pix, nofun, by simp⟩
  | embedOk h1 h2 =>
    exact ⟨_, exec_embed_ok (hin.plen ▸ h1) (hin.plen ▸ hin.cap ▸ h2), rfl, rfl, hin.embeddedPix,
      nofun, by simp⟩
  | extractTruncated h =>
    exact ⟨_, exec_extract_truncated (hin.cap ▸ h), rfl, rfl, hin.pix, fun _ => rfl, fun _ => rfl⟩
  | extractNoHiddenData h hl =>
    exact ⟨_, exec_extract_noHiddenData (hin.cap ▸ h) (hin.declaredLength ▸ hin.cap ▸ hl), rfl, rfl,
      hin.pix, fun _ => rfl, fun _ => rfl⟩
  | extractOk h =>
    have hres := congrArg (fun l => some (ResVal.olen l)) hin.declaredLength
    exact ⟨_, exec_extract_ok (hin.declaredLength ▸ hin.cap ▸ h), rfl, hres, hin.pix,
      fun _ => congrArg some hin.extractedOut, fun _ => rfl⟩

/-- Settles O45: the way the operation ends on the first state has its like on the second. -/
theorem outcomeDependsOnlyOnTheInputs : Obligations.OutcomeDependsOnlyOnTheInputs := by
  unfold Obligations.OutcomeDependsOnlyOnTheInputs
  intro i s1 s2 hw hh hc hpix hinp hstrm
  obtain ⟨t1, h1, he⟩ := exec_ends i s1
  obtain ⟨t2, h2, hsame⟩ := he.sameOutcome ⟨hw, hh, hc, hpix, hinp⟩ hstrm
  exact ⟨t1, t2, h1, h2, hsame.status, hsame.res, hsame.pix, hsame.out, hsame.strm⟩

end Sys2Proof.Machine
end

section
/-! The host's actions one by one (`10_state.md` R34): what issuing a legal command runs, where a host
write goes, and what a host read answers. -/

namespace Sys2Proof.Machine

/-! ### Commands -/

/-- A command that decodes runs its operation with an empty access list (R86). -/
theorem runCommand_decoded {cmd : Command} {i : Instr} (h : decode cmd = .ok i) (s : State) :
    runCommand cmd s = exec i s.beginCommand := by
  rw [runCommand, h]

/-- Settles O5: the step performs the command, which decodes to the operation. -/
theorem stepRunsTheDecodedCommand : Obligations.StepRunsTheDecodedCommand := by
  unfold Obligations.StepRunsTheDecodedCommand
  intro s cmd rest i hp hdec
  calc step s = runCommand cmd (s.pop rest) := step_pending hp
    _ = exec i (s.pop rest).beginCommand := runCommand_decoded hdec _

/-! ### Host writes -/

theorem loadImg_ok {w h c : Nat} {pixels : List Byte} (hlen : pixels.length = w * h * c) (s : State) :
    loadImg w h c pixels s =
      .next { s with w := w, h := h, c := c, pix := Memory.ofBytes 0 pixels, strm := .closed } :=
  if_pos hlen

theorem hostWritePix_ok {k : Nat} {s : State} (hk : k < s.cap) (v : Byte) :
    hostWritePix k v s = .next (s.setPix (s.pix.write k v)) := if_pos hk

/-- Settles O50: the memories that LOADIMG, LOADPAY and a byte write leave, by the laws of `ofBytes`,
`ofList` and `write`. -/
theorem hostWritesReachTheirMemories : Obligations.HostWritesReachTheirMemories := by
  unfold Obligations.HostWritesReachTheirMemories
  refine ⟨?loadImg, ?loadPay, ?writePix⟩
  case loadImg =>
    intro s rest w h c pixels hp hlen
    refine ⟨Memory.ofBytes 0 pixels, (step_pending hp).trans (loadImg_ok hlen _),
      Memory.ofBytes_wf 0 pixels, ?_, fun k _ => ?_⟩
    · simpa [hlen] using Memory.ofBytes_below 0 pixels
    · simpa using Memory.read_ofBytes 0 pixels k
  case loadPay =>
    intro s rest bytes hp
    exact ⟨ByteSeq.ofList bytes, step_pending hp, ByteSeq.ofList_wf bytes, ByteSeq.toList_ofList bytes⟩
  case writePix =>
    intro s rest k v hp hwf hk
    refine ⟨s.pix.write k v, (step_pending hp).trans (hostWritePix_ok (s := s.pop rest) hk v),
      Memory.write_wf hwf k v, ?_, fun k' hk' => ?_⟩
    · rw [Memory.read_write hwf, if_pos rfl]
    · rw [Memory.read_write hwf, if_neg hk']

/-! ### Host reads -/

section
variable {s : State}

theorem hostReadRes_some {v : ResVal} (h : s.res = some v) : hostReadRes s = .ok v := by
  rw [hostReadRes, h]

theorem hostReadRes_none (h : s.res = none) : hostReadRes s = .error (.noValue .res) := by
  rw [hostReadRes, h]

theorem hostReadOut_none (h : s.out = none) (j : Nat) : hostReadOut j s = .error (.noValue .out) := by
  rw [hostReadOut, h]

theorem hostReadOut_lt {o : ByteSeq} {j : Nat} (h : s.out = some o) (hj : j < o.len) :
    hostReadOut j s = .ok (o.cells.read j) := by
  rw [hostReadOut, h]
  exact if_pos hj

theorem hostReadOut_ge {o : ByteSeq} {j : Nat} (h : s.out = some o) (hj : o.len ≤ j) :
    hostReadOut j s = .error (.output j) := by
  rw [hostReadOut, h]
  exact if_neg (Nat.not_lt.2 hj)

theorem hostReadPix_lt {k : Nat} (hk : k < s.cap) : hostReadPix k s = .ok (s.pix.read k) := if_pos hk

theorem hostReadPix_ge {k : Nat} (hk : s.cap ≤ k) : hostReadPix k s = .error (.channel k) :=
  if_neg (Nat.not_lt.2 hk)

/-! A pending read answers as the value read in the state before the step says. -/

variable {rest : List HostAction}

theorem step_read_res (hp : s.pending = .read .res :: rest) :
    step s = readAnswer (hostReadRes s) (s.pop rest) :=
  (step_pending hp).trans (hostRead_res _)

theorem step_read_out {j : Nat} (hp : s.pending = .read (.out j) :: rest) :
    step s = readAnswer (hostReadOut j s) (s.pop rest) :=
  (step_pending hp).trans (hostRead_out j _)

theorem step_read_pix {k : Nat} (hp : s.pending = .read (.pix k) :: rest) :
    step s = readAnswer (hostReadPix k s) (s.pop rest) :=
  (step_pending hp).trans (hostRead_pix k _)

end

/-- Settles O51: each clause is the value of the read's own function, and the step that follows it. -/
theorem hostReadsChangeNothingAndFaultOnNoValue :
    Obligations.HostReadsChangeNothingAndFaultOnNoValue := by
  unfold Obligations.HostReadsChangeNothingAndFaultOnNoValue
  refine ⟨?frame, ?resNone, ?outNone, ?status, ?res, ?out, ?pix, ?outBeyond, ?pixBeyond⟩
  case frame =>
    intro s t rest what hp h
    rw [step_pending hp] at h
    exact hostRead_next h
  case resNone =>
    intro s rest hp hres
    rw [step_read_res hp, hostReadRes_none hres]
    rfl
  case outNone =>
    intro s rest j hp hout
    rw [step_read_out hp, hostReadOut_none hout]
    rfl
  case status =>
    intro s rest hp
    exact ⟨rfl, step_pending hp⟩
  case res =>
    intro s rest v hp hres
    have hread := hostReadRes_some hres
    exact ⟨hread, by rw [step_read_res hp, hread]; rfl⟩
  case out =>
    intro s rest j o hp hout hj
    have hread := hostReadOut_lt hout hj
    exact ⟨hread, by rw [step_read_out hp, hread]; rfl⟩
  case pix =>
    intro s rest k hp hk
    have hread : hostReadPix k s = .ok (s.pix.read k) := hostReadPix_lt hk
    exact ⟨hread, by rw [step_read_pix hp, hread]; rfl⟩
  case outBeyond =>
    intro s rest j o hp hout hj
    have hread := hostReadOut_ge hout hj
    exact ⟨hread, by rw [step_read_out hp, hread]; rfl⟩
  case pixBeyond =>
    intro s rest k hp hk
    have hread : hostReadPix k s = .error (.channel k) := hostReadPix_ge hk
    exact ⟨hread, by rw [step_read_pix hp, hread]; rfl⟩

end Sys2Proof.Machine
end

section
/-! The memories' limits (`20_memory.md`): no operation changes bits 7..1 of a channel (R59), and none
addresses a pixel, a payload byte or an output byte that does not exist (R57). -/

namespace Sys2Proof.Machine

/-! ### Bits 7..1 -/

/-- PIXW keeps bits 7..1 of every channel, in its own pixel and outside it (R148). -/
theorem keep_pixw {i : Nat} {g : List Bit} {s : State} (hw : s.pix.wf) (hg : g.length = s.c) (k : Nat) :
    (s.pix.writeRun (s.pixelBase i) (List.zipWith lsbReplace (s.pixel i) g)).read k &&&
        Config.keepMask = s.pix.read k &&& Config.keepMask := by
  rw [read_pixw hw hg]
  split
  · exact keep_lsbReplace _ _
  · rfl

/-- EMBED keeps bits 7..1 of every channel: of the frame, of the padding and behind it (R161). -/
theorem keep_embeddedPix {s : State} (hfit : required s.plen ≤ s.cap) (hw : s.pix.wf) (k : Nat) :
    s.embeddedPix.read k &&& Config.keepMask = s.pix.read k &&& Config.keepMask := by
  obtain ⟨-, hframe, hpadding, hbehind⟩ := embeddedPix_read hfit hw
  rcases Nat.lt_or_ge k (required s.plen) with hk | hk
  · rw [hframe k hk, keep_lsbReplace]
  · rcases Nat.lt_or_ge k (touchedPixels s.plen s.c * s.c) with hend | hend
    · rw [hpadding k hk hend, keep_lsbReplace]
    · rw [hbehind k hend]

/-- Settles O41: only PIXW and EMBED write PIX, and both go through LSB-replace. -/
theorem noCommandChangesUpperChannelBits : Obligations.NoCommandChangesUpperChannelBits := by
  unfold Obligations.NoCommandChangesUpperChannelBits
  intro i s t hw h k
  have he := ends_of_exec h
  cases he with
  | pixw _ hg => exact keep_pixw hw hg k
  | embedOk _ hfit => exact keep_embeddedPix hfit hw k
  | _ => rfl

/-! ### Accesses -/

/-- The access addresses a cell that exists: a pixel of the image, a byte of the payload, or a byte of OUT
below the length limit (R57, R163). -/
def Access.inside (s : State) : Access → Prop
  | .pixRead p | .pixWrite p => p < s.npix
  | .inRead j => j < s.plen
  | .outWrite j => j < Config.lengthLimit

/-- Stream bits that remain are read from existing pixels; no bit is read where n = 0, wherever POS
stands. -/
theorem streamReads_inside {s : State} {pos n : Nat} (h : n ≤ s.cap - pos) :
    ∀ a ∈ s.streamReads pos n, a.inside s := by
  intro a ha
  obtain ⟨k, hk, rfl⟩ := List.mem_map.1 ha
  have hk' := List.mem_range'_1.1 hk
  obtain ⟨-, hpixel, -⟩ := s.channel_index (k := k) (by omega)
  exact hpixel

theorem pixwAccesses_inside {s : State} {i n : Nat} (h : i + n ≤ s.npix) :
    ∀ a ∈ pixwAccesses i n, a.inside s := by
  intro a ha
  obtain ⟨p, hp, ha⟩ := List.mem_flatMap.1 ha
  have hp' : p < s.npix := (List.mem_range'_1.1 hp).2.trans_le h
  rcases List.mem_pair.1 ha with rfl | rfl
  · exact hp'
  · exact hp'

/-- EMBED reads IN up to PLEN and touches the pixels of the frame, which exist where it fits (R163). -/
theorem embedAccesses_inside {s : State} (hfit : required s.plen ≤ s.cap) :
    ∀ a ∈ s.embedAccesses, a.inside s := by
  intro a ha
  obtain ⟨-, htouched, -⟩ := touched_bounds hfit
  rcases List.mem_append.1 ha with ha | ha
  · obtain ⟨j, hj, rfl⟩ := List.mem_map.1 ha
    exact List.mem_range.1 hj
  · exact pixwAccesses_inside (by omega) a ha

/-- The payload loop reads existing pixels where the declared frame fits, and writes OUT below 2^32 where
the declared length is a 32-bit number. -/
theorem payloadAccesses_inside {s : State} {pos j n : Nat} (hfit : pos + n * 8 ≤ s.cap)
    (hlen : j + n ≤ Config.lengthLimit) : ∀ a ∈ s.payloadAccesses pos j n, a.inside s := by
  intro a ha
  obtain ⟨t, ht, ha⟩ := List.mem_flatMap.1 ha
  have ht' := List.mem_range.1 ht
  rcases List.mem_append.1 ha with ha | ha
  · exact streamReads_inside (by omega) a ha
  · obtain rfl := List.mem_singleton.1 ha
    exact (Nat.add_lt_add_left ht' j).trans_le hlen

theorem extractAccesses_inside {s : State} (hfit : 32 + s.declaredLength.toNat * 8 ≤ s.cap) :
    ∀ a ∈ s.extractAccesses, a.inside s := by
  intro a ha
  rcases List.mem_append.1 ha with ha | ha
  · exact streamReads_inside (by omega) a ha
  · have hlen : 0 + s.declaredLength.toNat ≤ Config.lengthLimit := by
      simpa using s.declaredLength.isLt.le
    exact payloadAccesses_inside hfit hlen a ha

/-- Whichever way an operation ends, it has added to the access list only accesses inside the memories. -/
theorem Ends.accesses_inside {i : Instr} {s t : State} (he : Ends i s t) :
    ∃ new, t.accesses = s.accesses ++ new ∧ ∀ a ∈ new, a.inside s := by
  cases he with
  | pullBit _ hpos =>
    obtain ⟨-, hpixel, -⟩ := s.channel_index hpos
    exact ⟨_, rfl, List.forall_mem_singleton.2 hpixel⟩
  | bits2iOk _ _ hfit => exact ⟨_, rfl, streamReads_inside hfit⟩
  | pixr hi => exact ⟨_, rfl, List.forall_mem_singleton.2 hi⟩
  | pixw hi => exact ⟨_, rfl, List.forall_mem_cons.2 ⟨hi, List.forall_mem_singleton.2 hi⟩⟩
  | embedOk _ hfit => exact ⟨_, rfl, embedAccesses_inside hfit⟩
  | extractNoHiddenData hheader => exact ⟨_, rfl, streamReads_inside hheader⟩
  | extractOk hfit => exact ⟨_, rfl, extractAccesses_inside hfit⟩
  | _ => exact ⟨[], (List.append_nil _).symm, nofun⟩

/-- Settles O46: what each way of `Ends` adds to the access list lies inside the memories. -/
theorem noCommandAddressesOutsideItsMemories : Obligations.NoCommandAddressesOutsideItsMemories := by
  unfold Obligations.NoCommandAddressesOutsideItsMemories
  intro i s t h
  obtain ⟨new, hnew, hinside⟩ := (ends_of_exec h).accesses_inside
  refine ⟨new, hnew, fun a ha => ?_⟩
  have ha' := hinside a ha
  cases a with
  | pixRead | pixWrite | inRead | outWrite => exact ha'

end Sys2Proof.Machine
end

section
/-! The decoder (`30_encoding.md` R86 to R91) by the two fields of a command word: a word is `RSV ++ OP`,
a word with `RSV` = 0 decodes as its `OP` code does, and every other word is rejected. -/

namespace Sys2Proof

/-! ### The fields of a command word -/

@[simp] theorem rsvField_append (rsv op : BitVec 4) : rsvField (rsv ++ op) = rsv := by
  rw [rsvField, BitVec.extractLsb'_append_eq_left]

@[simp] theorem opField_append (rsv op : BitVec 4) : opField (rsv ++ op) = op := by
  rw [opField, BitVec.extractLsb'_append_eq_right]

/-- A command word is its two fields, `RSV` in the upper half (R86). -/
theorem exists_fields (cw : BitVec 8) : ∃ rsv op : BitVec 4, cw = rsv ++ op := by
  have hfields : rsvField cw ++ opField cw = cw.extractLsb' 0 8 :=
    BitVec.extractLsb'_append_extractLsb'_eq_extractLsb' rfl
  rw [BitVec.extractLsb'_eq_self] at hfields
  exact ⟨rsvField cw, opField cw, hfields.symm⟩

/-! ### Decoding by fields -/

/-- A word with `RSV` = 0 decodes as its `OP` code does (R88). -/
theorem decode_op (op : BitVec 4) (o : Operands) : decode ⟨0#4 ++ op, o⟩ = decodeOp op o := by
  simp [decode]

/-- A word with `RSV` ≠ 0 is rejected, whatever its `OP` code is (R91). -/
theorem decode_rsv {rsv : BitVec 4} (h : rsv ≠ 0#4) (op : BitVec 4) (o : Operands) :
    decode ⟨rsv ++ op, o⟩ = .error (.rsv rsv) := by
  simp [decode, h]

/-- The `OP` codes without an operation (R91). -/
theorem decodeOp_error_iff (op : BitVec 4) (o : Operands) :
    (∃ r, decodeOp op o = .error r) ↔ op = 0x0#4 ∨ op = 0xD#4 ∨ op = 0xE#4 ∨ op = 0xF#4 := by
  obtain ⟨⟨code, hcode⟩⟩ := op
  interval_cases code <;> simp [decodeOp]

/-- An `OP` code that selects an operation is the code of the word that the operation encodes to. -/
theorem encode_cw_of_decodeOp {op : BitVec 4} {o : Operands} {i : Instr} (h : decodeOp op o = .ok i) :
    (encode i).cw = 0#4 ++ op := by
  have hcode : (encode i).cw.toNat = op.toNat := by
    unfold decodeOp at h
    split at h <;> cases h <;> (next hop => exact hop.symm)
  have happend : (0#4 ++ op).toNat = op.toNat := by rw [BitVec.toNat_append]; simp
  exact BitVec.eq_of_toNat_eq (hcode.trans happend.symm)

/-- A command decodes only if its word is the one that the operation encodes to (R88). -/
theorem encode_cw_of_decode {cmd : Command} {i : Instr} (h : decode cmd = .ok i) :
    (encode i).cw = cmd.cw := by
  obtain ⟨cw, o⟩ := cmd
  obtain ⟨rsv, op, rfl⟩ := exists_fields cw
  by_cases hrsv : rsv = 0#4
  · subst hrsv
    rw [decode_op] at h
    exact encode_cw_of_decodeOp h
  · rw [decode_rsv hrsv] at h
    cases h

/-- Each operation's word has `RSV` = 0 and an `OP` code that gives back the operation (R88). -/
@[simp] theorem decode_encode (i : Instr) : decode (encode i) = .ok i := by
  cases i with
  | b2bits => exact decode_op 0x1 _
  | sopen => exact decode_op 0x2 _
  | pull => exact decode_op 0x3 _
  | bits2i => exact decode_op 0x4 _
  | i2b => exact decode_op 0x5 _
  | b2i => exact decode_op 0x6 _
  | lsbr => exact decode_op 0x7 _
  | lsbw => exact decode_op 0x8 _
  | pixr => exact decode_op 0x9 _
  | pixw => exact decode_op 0xA _
  | embed => exact decode_op 0xB _
  | extract => exact decode_op 0xC _

/-! ### How many words are reserved -/

/-- No operation stands for the word (R91). -/
def reservedWord (w : Nat) : Bool := (decode (tableCommand w)).toOption.isNone

theorem filter_not_reservedWord :
    (List.range 256).filter (fun w => ¬ reservedWord w) = List.range' 1 12 := by
  decide

/-- Twelve of the 256 words select an operation, the other 244 are reserved (R91). -/
theorem countP_reservedWord : (List.range 256).countP reservedWord = 244 := by
  have hsplit := List.length_eq_countP_add_countP reservedWord (l := List.range 256)
  rw [List.countP_eq_length_filter (p := fun w => decide ¬ reservedWord w = true),
    filter_not_reservedWord] at hsplit
  simp only [List.length_range, List.length_range'] at hsplit
  omega

/-! ### The statements -/

/-- Settles O4: the word is the encoded one, and with the encoded operands it is the encoding itself. -/
theorem decodedCommandsHaveTheEncodedWord : Obligations.DecodedCommandsHaveTheEncodedWord := by
  unfold Obligations.DecodedCommandsHaveTheEncodedWord
  intro cmd i h
  have hcw : (encode i).cw = cmd.cw := encode_cw_of_decode h
  exact ⟨hcw, hcw ▸ decode_encode i⟩

/-- Settles O1: a word is rejected for its `RSV` field or, where that is 0, for its `OP` code. -/
theorem reservedWordsAreExactlyTheRejectedOnes :
    Obligations.ReservedWordsAreExactlyTheRejectedOnes := by
  unfold Obligations.ReservedWordsAreExactlyTheRejectedOnes
  refine ⟨fun cw o => ?rejected, ?count⟩
  case rejected =>
    change _ ↔ rsvField cw ≠ 0x0#4 ∨ opField cw = 0x0#4 ∨ opField cw = 0xD#4 ∨
      opField cw = 0xE#4 ∨ opField cw = 0xF#4
    obtain ⟨rsv, op, rfl⟩ := exists_fields cw
    rw [rsvField_append, opField_append]
    by_cases hrsv : rsv = 0#4
    · subst hrsv
      simp only [decode_op, decodeOp_error_iff, ne_eq, not_true_eq_false, false_or]
    · simp [decode_rsv hrsv, hrsv]
  case count => exact countP_reservedWord

/-- Settles O2: each of the twelve words has `RSV` = 0, and its `OP` code selects the row. -/
theorem tableWordsSelectTheirOperations : Obligations.TableWordsSelectTheirOperations := by
  unfold Obligations.TableWordsSelectTheirOperations
  intro o
  exact ⟨decode_op 0x1 o, decode_op 0x2 o, decode_op 0x3 o, decode_op 0x4 o, decode_op 0x5 o,
    decode_op 0x6 o, decode_op 0x7 o, decode_op 0x8 o, decode_op 0x9 o, decode_op 0xA o,
    decode_op 0xB o, decode_op 0xC o⟩

/-- Settles O3, by `decode_encode`. -/
theorem decodeOfEncodeIsTheInstruction : Obligations.DecodeOfEncodeIsTheInstruction := by
  unfold Obligations.DecodeOfEncodeIsTheInstruction
  exact decode_encode

end Sys2Proof
end

section
/-! How a command ends (`30_encoding.md` R92, R110, `60_exceptions.md` R195): refused, finished, or with a
failure kind of its own; and the pseudo-operations (R96) as the commands they expand to. -/

namespace Sys2Proof.Machine

/-! ### Refusal -/

/-- A reserved word is refused (R91, R92). -/
theorem runCommand_reserved {cmd : Command} {r : Reserved} (h : decode cmd = .error r) (s : State) :
    runCommand cmd s = .next s.beginCommand.refuse := by
  rw [runCommand, h]

/-- A legal word whose operation is not admitted is refused (R90, R92). -/
theorem runCommand_inadmissible {cmd : Command} {i : Instr} {s : State} (h : decode cmd = .ok i)
    (hi : s.inadmissible i) : runCommand cmd s = .next s.beginCommand.refuse := by
  have hi' : s.beginCommand.inadmissible i := hi
  rw [runCommand_decoded h, exec_refused hi']

/-- Settles O6: the step performs the command, which is refused for its word or for its operands. -/
theorem refusalChangesOnlyStatusAndResult : Obligations.RefusalChangesOnlyStatusAndResult := by
  unfold Obligations.RefusalChangesOnlyStatusAndResult
  refine ⟨?step, fun i s hi => exec_refused hi⟩
  rintro s cmd rest hp (⟨r, hr⟩ | ⟨i, hdec, hi⟩)
  · exact (step_pending hp).trans (runCommand_reserved hr _)
  · exact (step_pending hp).trans (runCommand_inadmissible (s := s.pop rest) hdec hi)

/-! ### Outcomes -/

/-- IllegalOp is the outcome of a refusal and no failure kind of an operation (R195). -/
theorem not_mayRaise_illegalOp (i : Instr) : ¬ mayRaise i .illegalOp := by
  cases i <;> simp [mayRaise]

/-- An admitted operation ends in success or in a failure kind of its own (R110, R195, R204). -/
theorem Ends.finish_or_raise {i : Instr} {s t : State} (he : Ends i s t) (hi : ¬ s.inadmissible i) :
    (∃ u v, t = State.finish v u) ∨ ∃ u k, mayRaise i k ∧ t = State.raise k u := by
  cases he with
  | refused h => exact absurd h hi
  | bits2iShort | embedTooLarge => exact .inr ⟨_, _, rfl, rfl⟩
  | extractTruncated => exact .inr ⟨_, _, .inr rfl, rfl⟩
  | extractNoHiddenData => exact .inr ⟨_, _, .inl rfl, rfl⟩
  | _ => exact .inl ⟨_, _, rfl⟩

/-- Settles O7: an operation that is not admitted is refused, any other ends in success or in a failure
kind of its own. -/
theorem everyOperationEndsWithItsOwnOutcomes : Obligations.EveryOperationEndsWithItsOwnOutcomes := by
  unfold Obligations.EveryOperationEndsWithItsOwnOutcomes
  intro i s
  by_cases hi : s.inadmissible i
  · exact ⟨s.refuse, exec_refused hi, iff_of_true rfl hi, fun h => absurd hi h, fun _ => rfl⟩
  obtain ⟨t, ht, he⟩ := exec_ends i s
  refine ⟨t, ht, ?_⟩
  rcases he.finish_or_raise hi with ⟨u, v, rfl⟩ | ⟨u, k, hk, rfl⟩
  · exact ⟨iff_of_false nofun hi, fun _ => ⟨.inl rfl, rfl, rfl, rfl⟩, fun h => absurd rfl h⟩
  · have hlegal : k ≠ .illegalOp := fun h => not_mayRaise_illegalOp i (h ▸ hk)
    exact ⟨iff_of_false hlegal hi, fun _ => ⟨.inr hk, rfl, rfl, rfl⟩, fun _ => rfl⟩

/-! ### Pseudo-operations -/

/-- The command that stands for an operation runs it. -/
theorem runCommand_encode (i : Instr) (s : State) : runCommand (encode i) s = exec i s.beginCommand :=
  runCommand_decoded (decode_encode i) s

theorem pseudoHdrenc_tooLarge {l : Nat} (h : Config.lengthLimit ≤ l) (s : State) :
    pseudoHdrenc l s = .next (s.beginCommand.raise .payloadTooLarge) := if_pos h

theorem pseudoHdrenc_i2b {l : Nat} (h : l < Config.lengthLimit) (s : State) :
    pseudoHdrenc l s = exec (.i2b (BitVec.ofNat 32 l)) s.beginCommand := by
  rw [pseudoHdrenc, if_neg (Nat.not_le.2 h), runCommand_encode]

/-- Settles O52: HDRENC by its two cases, HDRDEC and RDBYTE as the commands they stand for. -/
theorem pseudoOperationsExpand : Obligations.PseudoOperationsExpand := by
  unfold Obligations.PseudoOperationsExpand
  refine ⟨?tooLarge, ?hdrenc, ?hdrdec, ?rdbyte⟩
  case tooLarge => exact fun s rest l hp hl => (step_pending hp).trans (pseudoHdrenc_tooLarge hl _)
  case hdrenc => exact fun s rest l hp hl => (step_pending hp).trans (pseudoHdrenc_i2b hl _)
  case hdrdec => exact fun s rest hp => (step_pending hp).trans (runCommand_encode (.bits2i 32) _)
  case rdbyte => exact fun s rest hp => (step_pending hp).trans (runCommand_encode (.bits2i 8) _)

end Sys2Proof.Machine
end

section
/-! The bit packer (`40_bit_packer.md`): what PULL and BITS2I take from an open stream, how their reads
compose (R119), and that no operation but SOPEN moves a stream back (R116). -/

namespace Sys2Proof.Machine

/-! ### Bits and reads of the stream -/

/-- Setting the stream to what it is changes nothing. -/
theorem State.setStrm_self {s : State} {x : Stream} (h : s.strm = x) : s.setStrm x = s := by
  subst h; rfl

/-- The pixel reads for two consecutive runs of stream bits, one after the other (R117). -/
theorem State.streamReads_append (s : State) (pos a b : Nat) :
    s.streamReads pos (a + b) = s.streamReads pos a ++ s.streamReads (pos + a) b := by
  simp [State.streamReads, ← List.map_append]

/-- Up to 32 stream bits assemble to their exact number (R117). -/
theorem toNat_streamNumber (s : State) (pos : Nat) {n : Nat} (hn : n ≤ 32) :
    (bitsToInt (s.streamBits pos n)).toNat = bitsNat (s.streamBits pos n) :=
  toNat_bitsToInt (by simpa using hn)

/-- The number of two consecutive runs of stream bits: the first run's weighs 2^b (R119 a). -/
theorem toNat_streamNumber_add (s : State) (pos : Nat) {a b : Nat} (h : a + b ≤ 32) :
    (bitsToInt (s.streamBits pos (a + b))).toNat =
      (bitsToInt (s.streamBits pos a)).toNat * 2 ^ b +
        (bitsToInt (s.streamBits (pos + a) b)).toNat := by
  rw [toNat_streamNumber s _ h, toNat_streamNumber s _ (by omega), toNat_streamNumber s _ (by omega),
    State.streamBits_append, bitsNat_append, State.length_streamBits]

/-! ### BITS2I and PULL on an open stream -/

/-- BITS2I 0 reads nothing and moves nothing, wherever POS stands. -/
theorem exec_bits2i_zero {s : State} {pos : Nat} (hs : s.strm = .opened pos) :
    exec (.bits2i 0#6) s = .next (s.finish (some (.number 0))) := by
  have hreads : s.logAll (s.streamReads pos 0) = s := s.logAll_nil
  rw [exec_bits2i_ok (Nat.zero_le _) hs (Nat.zero_le _)]
  change Host.Outcome.next (((s.logAll (s.streamReads pos 0)).setStrm (.opened pos)).finish _) = _
  rw [hreads, State.setStrm_self hs]
  rfl

/-- n PULLs in a row that find n bits move POS on by n (R115). -/
theorem runAll_pull_strm {n : Nat} {s : State} {pos : Nat} (hs : s.strm = .opened pos)
    (h : pos + n ≤ s.cap) :
    ∃ t, runAll (List.replicate n .pull) s = .next t ∧ t.strm = .opened (pos + n) := by
  cases n with
  | zero => exact ⟨s, rfl, hs⟩
  | succ n =>
    obtain ⟨t, ht, -, hstrm⟩ := runAll_pull n hs (by omega)
    exact ⟨t, ht, by rw [hstrm, Nat.add_assoc, min_eq_right h]⟩

/-- The last of k + 1 PULLs in a row delivers stream bit POS + k (R115). -/
theorem runAll_pull_res {k : Nat} {s : State} {pos : Nat} (hs : s.strm = .opened pos)
    (h : pos + k < s.cap) :
    ∃ t, runAll (List.replicate (k + 1) .pull) s = .next t ∧
      t.res = some (.pulled (some (s.streamBit (pos + k)))) := by
  obtain ⟨t, ht, hres, -⟩ := runAll_pull k hs (by omega)
  exact ⟨t, ht, by rw [hres, if_pos h]⟩

/-! ### The statements -/

/-- Settles O10: refused where it is not admitted, and otherwise the two ways PULL ends. -/
theorem pullDeliversTheNextBitOrExhaustion : Obligations.PullDeliversTheNextBitOrExhaustion := by
  unfold Obligations.PullDeliversTheNextBitOrExhaustion
  refine ⟨decode_op 0x3, fun s hs => exec_refused (i := .pull) hs, ?bit, ?exhausted, fun _ => rfl, rfl⟩
  case bit =>
    intro s pos hs hpos
    rw [exec_pull_bit hs hpos, streamBit_eq]
    rfl
  case exhausted => exact fun s pos hs hpos => exec_pull_exhausted hs hpos.ge

/-- Settles O11: the number of n stream bits where n remain, the two failures where they do not or where
BITS2I is not admitted. -/
theorem bits2iAssemblesExactlyNBits : Obligations.Bits2iAssemblesExactlyNBits := by
  unfold Obligations.Bits2iAssemblesExactlyNBits
  refine ⟨decode_op 0x4, ?number, fun n s pos hn hs _ h => exec_bits2i_short hn hs h,
    fun n s h => exec_refused (i := .bits2i n) h⟩
  intro n s pos hn hs hfit
  refine ⟨bitsToInt (s.streamBits pos n.toNat), ?_, ?_, ?_⟩
  · rw [exec_bits2i_ok hn hs (Nat.le_sub_of_add_le' hfit), reads_eq]
    rfl
  · rw [toNat_streamNumber s pos hn, bitsNat_stream]
  · simpa using bitsToInt_lt (l := s.streamBits pos n.toNat) (by simpa using hn)

/-- Settles O12: the stream bits, and the reads that deliver them, of a + b positions are those of a
positions followed by those of b. -/
theorem bits2iSplits : Obligations.Bits2iSplits := by
  unfold Obligations.Bits2iSplits
  intro a b ab s pos hab hn hs hfit
  change pos + ab.toNat ≤ s.cap at hfit
  let t := ((s.logAll (s.streamReads pos a.toNat)).setStrm (.opened (pos + a.toNat))).finish
    (some (.number (bitsToInt (s.streamBits pos a.toNat))))
  have hcap : t.cap = s.cap := rfl
  have hfirst : exec (.bits2i a) s = .next t := exec_bits2i_ok (by omega) hs (by omega)
  have hsecond := exec_bits2i_ok (s := t) (n := b) (by omega) rfl (by omega)
  have hwhole := exec_bits2i_ok hn hs (by omega)
  refine ⟨t, _, _, _, _, _, hfirst, rfl, hsecond, rfl, hwhole, rfl, ?strm, rfl, ?accesses, ?number⟩
  case strm => exact congrArg Stream.opened (by omega)
  case accesses =>
    change (s.accesses ++ s.streamReads pos a.toNat) ++ s.streamReads (pos + a.toNat) b.toNat =
      s.accesses ++ s.streamReads pos ab.toNat
    rw [hab, State.streamReads_append, List.append_assoc]
  case number =>
    rw [hab]
    exact toNat_streamNumber_add s pos (by omega)

/-- Settles O13: both take the n stream bits from POS on, PULL one at a time. -/
theorem pullsEqualOneBits2i : Obligations.PullsEqualOneBits2i := by
  unfold Obligations.PullsEqualOneBits2i
  intro n s pos hn hs hfit
  change pos + n.toNat ≤ s.cap at hfit
  obtain ⟨t, ht, hstrm⟩ := runAll_pull_strm hs hfit
  refine ⟨s.streamBits pos n.toNat, t, _, _, s.length_streamBits pos n.toNat, ?delivered, ht,
    exec_bits2i_ok hn hs (by omega), rfl, hstrm, ?number⟩
  case delivered =>
    intro k hk
    have hbit : (s.streamBits pos n.toNat)[k] = s.streamBit (pos + k) := by simp [State.streamBits]
    rw [State.length_streamBits] at hk
    rw [hbit]
    exact runAll_pull_res hs (by omega)
  case number => rw [toNat_streamNumber s pos hn, bitsNat_eq_sum, State.length_streamBits]

/-- On the ways an operation other than SOPEN ends, a stream that is open within CAP before and open after
has moved forward, within CAP (R116). -/
theorem Ends.strm_forward {i : Instr} {s t : State} {pos pos' : Nat} (he : Ends i s t)
    (hsopen : i ≠ .sopen) (hs : s.strm = .opened pos) (hpos : pos ≤ s.cap)
    (ht : t.strm = .opened pos') : pos ≤ pos' ∧ pos' ≤ s.cap := by
  have hkept (h : t.strm = s.strm) : pos ≤ pos' ∧ pos' ≤ s.cap := by
    rw [ht, hs, Stream.opened.injEq] at h
    omega
  cases he with
  | sopen => exact absurd rfl hsopen
  | pullBit hs' h =>
    cases hs.symm.trans hs'
    cases ht
    omega
  | bits2iOk _ hs' h =>
    cases hs.symm.trans hs'
    cases ht
    omega
  | bits2iShort =>
    cases ht
    exact ⟨hpos, le_rfl⟩
  | extractTruncated | extractNoHiddenData | extractOk => cases ht
  | _ => exact hkept rfl

/-- Settles O14: the stream moves as on the ways of `Ends`, and no operation changes the geometry. -/
theorem streamOnlyMovesForward : Obligations.StreamOnlyMovesForward := by
  unfold Obligations.StreamOnlyMovesForward
  intro i s t pos pos' hsopen hs hpos h ht
  have he := ends_of_exec h
  obtain ⟨hw, hh, hc, -, -⟩ := he.host_frame
  rw [hw, hh, hc]
  exact he.strm_forward hsopen hs hpos ht

/-- Settles O8, by the closed form of `bytesToBits`. -/
theorem b2bitsProducesEachByteMostSignificantBitFirst :
    Obligations.B2bitsProducesEachByteMostSignificantBitFirst := by
  unfold Obligations.B2bitsProducesEachByteMostSignificantBitFirst
  exact ⟨decode_op 0x1, fun bytes s => ⟨bytesToBits bytes, exec_b2bits bytes s,
    length_bytesToBits bytes, getElem?_bytesToBits bytes⟩⟩

/-- Settles O9: SOPEN ends in one way from every state. -/
theorem sopenCreatesAFreshStream : Obligations.SopenCreatesAFreshStream := by
  unfold Obligations.SopenCreatesAFreshStream
  exact ⟨decode_op 0x2, exec_sopen⟩

/-- Settles O55: beyond CAP no bit remains, so PULL is exhausted, and BITS2I has too few bits unless it
takes none. -/
theorem positionsBeyondCapCountAsExhausted : Obligations.PositionsBeyondCapCountAsExhausted := by
  unfold Obligations.PositionsBeyondCapCountAsExhausted
  intro s pos hs hpos
  change s.cap < pos at hpos
  exact ⟨exec_pull_exhausted hs hpos.le, exec_bits2i_zero hs,
    fun n hn0 hn => exec_bits2i_short hn hs (by omega)⟩

end Sys2Proof.Machine
end

section
/-! The header codec (`41_header_codec.md`): I2B and B2I as the slices of a word, and BITS2I 32 on a stream
that carries the bits of a header (R134, R137). -/

namespace Sys2Proof.Machine

/-! ### The bytes of a word -/

/-- A byte cut out of a word by shift and mask is the word's 8-bit slice at that shift. -/
theorem wordByte_eq_extractLsb' (n : Word) (d : Nat) :
    ((n >>> d) &&& 0xFF#32).setWidth 8 = n.extractLsb' d 8 := by
  apply BitVec.eq_of_toNat_eq
  rw [toNat_wordByte, BitVec.extractLsb'_toNat, Nat.shiftRight_eq_div_pow]

/-- I2B cuts a word into its four slices, most significant first (R131). -/
theorem intToBytes_eq_slices (n : Word) :
    intToBytes n =
      ⟨n.extractLsb' 24 8, n.extractLsb' 16 8, n.extractLsb' 8 8, n.extractLsb' 0 8⟩ := by
  have hlow := wordByte_eq_extractLsb' n 0
  rw [BitVec.ushiftRight_zero] at hlow
  rw [intToBytes, wordByte_eq_extractLsb' n 24, wordByte_eq_extractLsb' n 16,
    wordByte_eq_extractLsb' n 8, hlow]

/-! ### A header in the stream -/

/-- A bit sequence that agrees with the channels' LSBs from position pos on is that run of stream bits
(R114). -/
theorem State.streamBits_eq_of_getElem? {s : State} {pos n : Nat} {l : List Bit} (hl : l.length = n)
    (h : ∀ k, k < n → l[k]? = some ((s.pix.read (pos + k)).extractLsb' 0 1)) :
    s.streamBits pos n = l := by
  refine List.ext_getElem (by simp [hl]) fun k hk _ => ?_
  rw [State.length_streamBits] at hk
  have hbit : (s.streamBits pos n)[k]'(by simpa using hk) = s.streamBit (pos + k) := by
    simp [State.streamBits]
  rw [hbit, streamBit_eq]
  exact ((List.getElem_eq_iff _).2 (h k hk)).symm

/-- BITS2I 32 where 32 bits remain gives their number (R117). -/
theorem exec_bits2i_32 {s : State} {pos : Nat} (hs : s.strm = .opened pos) (h : pos + 32 ≤ s.cap) :
    ∃ v, exec (.bits2i 32#6) s = .next v ∧
      v.res = some (.number (bitsToInt (s.streamBits pos 32))) :=
  ⟨_, exec_bits2i_ok (n := 32#6) le_rfl hs (Nat.le_sub_of_add_le' h), rfl⟩

/-- BITS2I 32 on a stream that carries the bits of four header bytes gives their B2I number (R134). -/
theorem exec_bits2i_header {s : State} {pos : Nat} {b : Bytes4} (hs : s.strm = .opened pos)
    (hfit : pos + 32 ≤ s.cap)
    (hbits : ∀ k, k < 32 →
      (bytesToBits b.toList)[k]? = some ((s.pix.read (pos + k)).extractLsb' 0 1)) :
    ∃ v, exec (.bits2i 32#6) s = .next v ∧ v.res = some (.number (bytesToInt b)) := by
  rw [← bitsToInt_header, ← State.streamBits_eq_of_getElem? (length_bytesToBits b.toList) hbits]
  exact exec_bits2i_32 hs hfit

/-! ### The statements -/

/-- Settles O17: `intToBytes` and `bytesToInt` undo each other, and BITS2I 32 on the bits of a header gives
its `bytesToInt`. -/
theorem i2bAndB2iAreInverse : Obligations.I2bAndB2iAreInverse := by
  unfold Obligations.I2bAndB2iAreInverse
  refine ⟨fun n s => ?decoded, fun b s => ?encoded, ?stream⟩
  case decoded =>
    exact ⟨_, _, intToBytes n, exec_i2b n s, rfl, exec_b2i _ _,
      congrArg (fun m => some (ResVal.u32 m)) (bytesToInt_intToBytes n)⟩
  case encoded =>
    exact ⟨_, _, bytesToInt b, exec_b2i b s, rfl, exec_i2b _ _,
      congrArg (fun c => some (ResVal.bytes4 c)) (intToBytes_bytesToInt b)⟩
  case stream =>
    intro b s s' pos bits t ht hres hs hfit hbits
    obtain rfl : bytesToBits b.toList = bits := by
      cases (exec_b2bits b.toList s).symm.trans ht
      cases hres
      rfl
    obtain ⟨v, hv, hnum⟩ := exec_bits2i_header hs hfit hbits
    exact ⟨_, v, bytesToInt b, exec_b2i b s, rfl, hv, hnum⟩

/-- Settles O18: the bits are those of `header_bit`, BITS2I 32 on them gives the `bytesToInt` of the header,
and its number is the weighed sum of the stream bits. -/
theorem headerBitsRoundTrip : Obligations.HeaderBitsRoundTrip := by
  unfold Obligations.HeaderBitsRoundTrip
  refine ⟨fun n s => ?header, fun s' pos hs hfit => ?weights⟩
  case header =>
    refine ⟨_, _, intToBytes n, _, exec_i2b n s, rfl, exec_b2bits _ _, rfl, length_bytesToBits _,
      header_bit n, fun s' pos hs hfit hbits => ?_⟩
    simpa only [bytesToInt_intToBytes] using exec_bits2i_header hs hfit hbits
  case weights =>
    obtain ⟨v, hv, hres⟩ := exec_bits2i_32 hs hfit
    exact ⟨v, _, hv, hres, by rw [toNat_streamNumber s' pos le_rfl, bitsNat_stream]⟩

/-- Settles O15: the four bytes are the slices of `intToBytes_eq_slices`. -/
theorem i2bGivesTheFourBytesMostSignificantFirst :
    Obligations.I2bGivesTheFourBytesMostSignificantFirst := by
  unfold Obligations.I2bGivesTheFourBytesMostSignificantFirst
  refine ⟨decode_op 0x5, fun n s => ⟨intToBytes n, exec_i2b n s, ?_⟩⟩
  rw [intToBytes_eq_slices]
  exact ⟨rfl, rfl, rfl, rfl⟩

/-- Settles O16, by the weights of the four bytes in `bytesToInt`. -/
theorem b2iGivesTheBigEndianNumber : Obligations.B2iGivesTheBigEndianNumber := by
  unfold Obligations.B2iGivesTheBigEndianNumber
  exact ⟨decode_op 0x6, fun b s => ⟨bytesToInt b, exec_b2i b s, toNat_bytesToInt b⟩⟩

end Sys2Proof.Machine
end

section
/-! The LSB embedder (`42_lsb_embedder.md`): bits 7..1 under LSB-replace (R143), the lanes of the groups
(R145), and the pixel PIXR reads and PIXW leaves (R147, R148). -/

namespace Sys2Proof.Machine

/-! ### Bits 7..1 of a byte -/

/-- LSB-replace keeps bits 7..1 (R143). -/
theorem extractLsb'_lsbReplace (v : Byte) (b : Bit) :
    (lsbReplace v b).extractLsb' 1 7 = v.extractLsb' 1 7 := by
  revert v b; decide

/-! ### Groups and padding -/

/-- Bit k of the padded sequence is bit k of the sequence, and 0 behind its end (R145). -/
theorem getElem?_padded {c : Nat} {l : List Bit} {k : Nat} (hk : k < (padded c l).length) :
    (padded c l)[k]? = some (if h : k < l.length then l[k] else 0#1) := by
  rw [List.getElem?_eq_getElem hk]
  simp only [padded, List.getElem_append, List.getElem_replicate]
  rfl

/-- A lane of an existing group lies inside the padded sequence (R145). -/
theorem lane_lt_length_padded {c i lane : Nat} {l : List Bit} (hi : i < (group c l).length)
    (hlane : lane < c) : i * c + lane < (padded c l).length := by
  rw [length_group] at hi
  have hend : (i + 1) * c ≤ divCeil l.length c * c := Nat.mul_le_mul_right c hi
  rw [length_padded (Nat.zero_lt_of_lt hlane)]
  rw [Nat.add_mul] at hend
  omega

/-- Lane c of group i is bit i×C + c of the padded sequence (R145). -/
theorem getElem?_of_group {c i lane : Nat} {l g : List Bit} (hg : (group c l)[i]? = some g)
    (hlane : lane < c) : g[lane]? = (padded c l)[i * c + lane]? := by
  obtain ⟨hi, rfl⟩ := List.getElem?_eq_some_iff.1 hg
  simp only [group, getElem_pieces, List.getElem?_take_of_lt hlane, List.getElem?_drop]

/-- The padding is less than one group (R145). -/
theorem padding_lt {c : Nat} (hc : 0 < c) (l : List Bit) : (group c l).length * c - l.length < c := by
  have hlt := divCeil_mul_lt l.length hc
  rw [length_group]
  omega

/-! ### The lanes of a pixel -/

/-- Lane c of a pixel is its channel c (R146). -/
theorem State.getElem?_pixel (s : State) (i : Nat) {lane : Nat} (hlane : lane < s.c) :
    (s.pixel i)[lane]? = some (s.pix.read (s.pixelBase i + lane)) := by
  simp [State.pixel, hlane]

/-- The LSBs of lanes written by LSB-replace are the bits written (R144, lane by lane). -/
theorem map_lsb_zipWith_lsbReplace {p : List Byte} {g : List Bit} (h : p.length = g.length) :
    (List.zipWith lsbReplace p g).map lsb = g := by
  refine List.ext_getElem (by simp [h]) fun k _ _ => ?_
  simp [lsb_lsbReplace]

/-! ### The state PIXW leaves -/

/-- The state in which PIXW of group g on pixel i ends (R148); see `exec_pixw_next`. -/
def State.afterPixw (i : Nat) (g : List Bit) (s : State) : State :=
  ((s.setPix (s.pix.writeRun (s.pixelBase i) (List.zipWith lsbReplace (s.pixel i) g))).logAll
    [.pixRead i, .pixWrite i]).finish none

@[simp] theorem State.afterPixw_c (i : Nat) (g : List Bit) (s : State) :
    (s.afterPixw i g).c = s.c := rfl
@[simp] theorem State.afterPixw_pixelBase (i : Nat) (g : List Bit) (s : State) (j : Nat) :
    (s.afterPixw i g).pixelBase j = s.pixelBase j := rfl

section
variable {i : Nat} {g : List Bit} {s : State}

/-- PIXW of a group of C lanes on an existing pixel ends in `afterPixw`. -/
theorem exec_pixw_next (hi : i < s.npix) (hg : g.length = s.c) :
    exec (.pixw i g) s = .next (s.afterPixw i g) := exec_pixw_ok hi hg

theorem State.afterPixw_pix_wf (hw : s.pix.wf) : (s.afterPixw i g).pix.wf :=
  Memory.writeRun_wf hw _ _

/-- After PIXW the channels of its pixel read the replaced bytes, all others read as before (R148). -/
theorem State.read_afterPixw (hw : s.pix.wf) (hg : g.length = s.c) (k : Nat) :
    (s.afterPixw i g).pix.read k =
      if s.pixelBase i ≤ k ∧ k < s.pixelBase i + s.c then
        lsbReplace (s.pix.read k) (g.getD (k - s.pixelBase i) 0) else s.pix.read k :=
  read_pixw hw hg k

/-- The pixel PIXW has written (R148). -/
theorem State.pixel_afterPixw (hw : s.pix.wf) (hg : g.length = s.c) :
    (s.afterPixw i g).pixel i = List.zipWith lsbReplace (s.pixel i) g := by
  refine List.ext_getElem (by simp [hg]) fun lane hlane _ => ?_
  have hlane' : lane < s.c := by simpa using hlane
  rw [State.getElem_pixel, List.getElem_zipWith, State.getElem_pixel]
  exact (pixw_read hw hg lane hlane').trans (by simp [hg, hlane'])

/-- A second PIXW of the same group leaves PIX as it is (R148): the last write wins, bit by bit. -/
theorem State.afterPixw_afterPixw_pix (hw : s.pix.wf) (hg : g.length = s.c) :
    ((s.afterPixw i g).afterPixw i g).pix = (s.afterPixw i g).pix := by
  have hw' : (s.afterPixw i g).pix.wf := State.afterPixw_pix_wf hw
  refine Memory.ext_read (State.afterPixw_pix_wf hw') hw' fun k => ?_
  rw [State.read_afterPixw hw' hg, State.read_afterPixw hw hg, State.afterPixw_pixelBase,
    State.afterPixw_c]
  split
  · exact lsbReplace_lsbReplace _ _ _
  · rfl

/-- PIXR after PIXW reads the group back (R148). -/
theorem exec_pixr_afterPixw (hw : s.pix.wf) (hi : i < s.npix) (hg : g.length = s.c) :
    ∃ u, exec (.pixr i) (s.afterPixw i g) = .next u ∧ u.res = some (.lanes g) := by
  refine ⟨_, exec_pixr_ok hi, ?_⟩
  rw [State.finish_res, State.pixel_afterPixw hw hg, map_lsb_zipWith_lsbReplace (by simp [hg])]

end

/-! ### The statements -/

/-- Settles O22: the groups are the consecutive pieces of the padded sequence. -/
theorem groupingPadsTheLastGroupWithZeros : Obligations.GroupingPadsTheLastGroupWithZeros := by
  unfold Obligations.GroupingPadsTheLastGroupWithZeros
  intro c l hc
  refine ⟨fun n => ?count, fun g => length_of_mem_group hc, fun i lane g hg hlane => ?lanes,
    padding_lt hc l⟩
  case count => rw [length_group, divCeil_le_iff _ _ hc]
  case lanes =>
    obtain ⟨hi, -⟩ := List.getElem?_eq_some_iff.1 hg
    rw [getElem?_of_group hg hlane, getElem?_padded (lane_lt_length_padded hi hlane)]

/-- Settles O24: PIXW ends in `afterPixw`, whose PIX is read channel by channel. -/
theorem pixwReplacesTheLsbsOfOnePixel : Obligations.PixwReplacesTheLsbsOfOnePixel := by
  unfold Obligations.PixwReplacesTheLsbsOfOnePixel
  refine ⟨decode_op 0xA, fun i g s hw hi hg => ?result, fun i g s t hw hi hg ht => ?again,
    fun i g s h => exec_refused h⟩
  case result =>
    refine ⟨(s.afterPixw i g).pix, exec_pixw_next hi hg, State.afterPixw_pix_wf hw,
      pixw_read hw hg, fun k hk => ?_⟩
    rw [State.read_afterPixw hw hg, if_neg (by omega)]
  case again =>
    obtain rfl : s.afterPixw i g = t := by
      cases (exec_pixw_next hi hg).symm.trans ht
      rfl
    exact ⟨exec_pixr_afterPixw hw hi hg,
      _, exec_pixw_next hi hg, State.afterPixw_afterPixw_pix hw hg⟩

/-- Settles O19: bit-select is bit 0. -/
theorem lsbrSelectsBitZero : Obligations.LsbrSelectsBitZero := by
  unfold Obligations.LsbrSelectsBitZero
  refine ⟨decode_op 0x7, fun v s => ?_⟩
  rw [← lsb_eq]
  exact exec_lsbr v s

/-- Settles O20: the byte is `lsbReplace v b`, by its laws for bit 0 and for bits 7..1. -/
theorem lsbwReplacesBitZeroOnly : Obligations.LsbwReplacesBitZeroOnly := by
  unfold Obligations.LsbwReplacesBitZeroOnly
  exact ⟨decode_op 0x8, fun v b s => ⟨lsbReplace v b, exec_lsbw v b s, rfl,
    (lsb_eq _).symm.trans (lsb_lsbReplace v b), extractLsb'_lsbReplace v b⟩⟩

/-- Settles O21: what LSBR and LSBW answer, and the laws of `lsb` and `lsbReplace`. -/
theorem lsbFunctionsObeyTheirLaws : Obligations.LsbFunctionsObeyTheirLaws := by
  unfold Obligations.LsbFunctionsObeyTheirLaws
  exact ⟨fun v s => ⟨_, exec_lsbr v s, rfl⟩, fun v b s => ⟨_, exec_lsbw v b s, rfl⟩,
    lsb_lsbReplace, keep_lsbReplace, lsbReplace_lsb, lsbReplace_lsbReplace⟩

/-- Settles O23: RES holds bit-select of each lane of the pixel read. -/
theorem pixrReadsTheLsbOfEveryChannel : Obligations.PixrReadsTheLsbOfEveryChannel := by
  unfold Obligations.PixrReadsTheLsbOfEveryChannel
  refine ⟨decode_op 0x9, fun i s hi => ?_, fun i s hi => exec_refused hi⟩
  refine ⟨(s.pixel i).map lsb, exec_pixr_ok hi, by simp, fun lane hlane => ?_⟩
  rw [List.getElem?_map, State.getElem?_pixel s i hlane, Option.map_some, lsb_eq]

end Sys2Proof.Machine
end

section
/-! EMBED (`43_embed.md`): where a payload fits (R159), what a second EMBED leaves (R164 e), and the host's
own PIXWs of the groups (R157). -/

namespace Sys2Proof.Machine

/-! ### The capacity check -/

/-- The frame of l payload bytes fits n channels exactly when the header does and l is at most
floor(n / 8) − 4 (R159). -/
theorem required_le_iff (l n : Nat) : required l ≤ n ↔ 32 ≤ n ∧ l ≤ n / 8 - 4 := by
  rw [required]; omega

theorem exec_embed_outcome {s : State} (hlen : s.plen < Config.lengthLimit) :
    ∃ t, exec .embed s = .next t ∧ (t.status = .ok ↔ required s.plen ≤ s.cap) ∧
      (t.status ≠ .ok → t = s.raise .payloadTooLarge) := by
  rcases Nat.lt_or_ge s.cap (required s.plen) with hover | hfit
  · exact ⟨_, exec_embed_tooLarge (.inr hover),
      iff_of_false (by rw [State.raise_status]; decide) (Nat.not_le.2 hover), fun _ => rfl⟩
  · exact ⟨_, exec_embed_ok hlen hfit, iff_of_true rfl hfit, fun h => absurd rfl h⟩

/-! ### What a successful EMBED leaves -/

/-- The accesses of a successful EMBED, as R161 lists them. -/
theorem accesses_append_embedAccesses (s : State) :
    s.accesses ++ s.embedAccesses = s.accesses ++ (List.range s.inp.len).map .inRead ++
      (List.range (touchedPixels s.plen s.c)).flatMap fun p => [.pixRead p, .pixWrite p] := by
  rw [State.embedAccesses, pixwAccesses, ← List.range_eq_range', List.append_assoc, State.plen]

/-- The frame is IN's alone: EMBED of the same payload writes the same frame into any other PIX (R80). -/
@[simp] theorem State.frame_setPix (m : Memory) (s : State) : (s.setPix m).frame = s.frame := rfl

/-- EMBED into its own result leaves PIX as it is: every LSB it replaces already holds the bit (R164 e). -/
theorem embeddedPix_setPix_embeddedPix {s : State} (hfit : required s.plen ≤ s.cap) (hw : s.pix.wf) :
    (s.setPix s.embeddedPix).embeddedPix = s.embeddedPix := by
  obtain ⟨hw', hframe, hpadding, -⟩ := embeddedPix_read hfit hw
  obtain ⟨hw'', hframe', hpadding', hbehind'⟩ :=
    embeddedPix_read (s := s.setPix s.embeddedPix) hfit hw'
  refine Memory.ext_read hw'' hw' fun k => ?_
  rcases Nat.lt_or_ge k (required s.plen) with hk | hk
  · rw [hframe' k hk, State.setPix_pix, State.frame_setPix, hframe k hk, lsbReplace_lsbReplace]
  · rcases Nat.lt_or_ge k (touchedPixels s.plen s.c * s.c) with hend | hend
    · rw [hpadding' k hk hend, State.setPix_pix, hpadding k hk hend, lsbReplace_lsbReplace]
    · exact hbehind' k hend

/-! ### PIXW of each group by the host -/

/-- The commands of the host that write each group to consecutive pixels, from pixel i on. -/
def pixwCommands (i : Nat) (gs : List (List Bit)) : List Instr :=
  (gs.zipIdx i).map fun p => .pixw p.2 p.1

theorem pixwCommands_cons (i : Nat) (g : List Bit) (gs : List (List Bit)) :
    pixwCommands i (g :: gs) = .pixw i g :: pixwCommands (i + 1) gs := rfl

/-- PIXWs of groups of C lanes on existing pixels leave the PIX of step E5 (R161), and STATUS OK where there
is one. -/
theorem runAll_pixwCommands {gs : List (List Bit)} {i : Nat} {s : State} (hi : i + gs.length ≤ s.npix)
    (hg : ∀ g ∈ gs, g.length = s.c) :
    ∃ u, runAll (pixwCommands i gs) s = .next u ∧ u.pix = pixwPix s.c gs i s.pix ∧
      u.status = if gs = [] then s.status else .ok := by
  induction gs generalizing i s with
  | nil => exact ⟨s, rfl, rfl, rfl⟩
  | cons g gs ih =>
    obtain ⟨hg1, hgs⟩ := List.forall_mem_cons.1 hg
    rw [List.length_cons] at hi
    have hnext : i + 1 + gs.length ≤ (s.afterPixw i g).npix := by
      show _ ≤ s.npix
      omega
    obtain ⟨u, hrun, hpix, hstatus⟩ := ih hnext hgs
    refine ⟨u, ?_, hpix, hstatus.trans (ite_self _)⟩
    rw [pixwCommands_cons, runAll, exec_pixw_next (by omega) hg1]
    exact hrun

/-- The frame has one group for each touched pixel (R157 E4). -/
theorem length_group_frame (s : State) : (group s.c s.frame).length = touchedPixels s.plen s.c := by
  rw [length_group, State.length_frame, touchedPixels]

/-- The host's PIXWs of the groups of a frame that fits leave the PIX that EMBED leaves (R157 E5). -/
theorem runAll_pixwCommands_frame {s : State} (hfit : required s.plen ≤ s.cap) :
    ∃ u, runAll (pixwCommands 0 (group s.c s.frame)) s = .next u ∧
      u.status = .ok ∧ u.pix = s.embeddedPix := by
  obtain ⟨hc, htouched, hcover, -⟩ := touched_bounds hfit
  have hlen := length_group_frame s
  have hne : group s.c s.frame ≠ [] := by
    intro h
    rw [← hlen, h, required] at hcover
    simp at hcover
  obtain ⟨u, hrun, hpix, hstatus⟩ := runAll_pixwCommands (i := 0)
    (gs := group s.c s.frame) (by omega) fun g hg => length_of_mem_group hc hg
  exact ⟨u, hrun, hstatus.trans (if_neg hne), hpix⟩

/-! ### The statements -/

/-- Settles O26: either check turns the payload away before anything is read. -/
theorem embedOfATooLargePayloadChangesNothing : Obligations.EmbedOfATooLargePayloadChangesNothing := by
  unfold Obligations.EmbedOfATooLargePayloadChangesNothing
  exact fun s h => exec_embed_tooLarge h

/-- Settles O27: EMBED ends OK exactly where the frame fits, which `required_le_iff` solves for the length. -/
theorem embedAcceptsUpToTheCapacity : Obligations.EmbedAcceptsUpToTheCapacity := by
  unfold Obligations.EmbedAcceptsUpToTheCapacity
  intro s hlen
  obtain ⟨t, ht, hok, hraise⟩ := exec_embed_outcome hlen
  refine ⟨t, ht, hok, hok.trans (required_le_iff _ _), fun h => ?_⟩
  obtain rfl := hraise h
  exact ⟨rfl, rfl⟩

/-- Settles O28: PIX is `embeddedPix`, read region by region, with the bits of the frame for header and
payload. -/
theorem embedWritesTheFrameIntoTheLsbs : Obligations.EmbedWritesTheFrameIntoTheLsbs := by
  unfold Obligations.EmbedWritesTheFrameIntoTheLsbs
  refine ⟨decode_op 0xB, fun s hw hlen hfit => ?_⟩
  obtain ⟨hc, -⟩ := touched_bounds hfit
  obtain ⟨hw', hframe, hpadding, hbehind⟩ := embeddedPix_read hfit hw
  refine ⟨s.embeddedPix, touchedPixels s.plen s.c, fun n => divCeil_le_iff _ n hc, ?run, hw',
    fun k hk => ?header, fun j t hj ht => ?payload, fun k hk hend => ?padding, hbehind⟩
  case run =>
    rw [exec_embed_ok hlen hfit, ← accesses_append_embedAccesses]
    rfl
  case header =>
    rw [hframe k (by rw [required]; omega), frame_header s k hk]
    rfl
  case payload =>
    have hplen : j < s.plen := hj
    rw [hframe _ (by rw [required]; omega), frame_payload s j t hj ht]
    rfl
  case padding => rw [hpadding k hk hend, lsbReplace_zero]

/-- Settles O29: the state a successful EMBED leaves has the same payload and geometry, so EMBED succeeds
again, into its own result. -/
theorem embedIsIdempotent : Obligations.EmbedIsIdempotent := by
  unfold Obligations.EmbedIsIdempotent
  intro s t hw h hok
  obtain ⟨hlen, hfit, rfl⟩ := embed_ok_inv h hok
  exact ⟨_, exec_embed_ok hlen hfit, rfl, embeddedPix_setPix_embeddedPix hfit hw⟩

/-- Settles O30: EMBED's step E5 and the host's PIXWs write the same groups to the same pixels. -/
theorem embeddingByHandAgrees : Obligations.EmbeddingByHandAgrees := by
  unfold Obligations.EmbeddingByHandAgrees
  intro s hlen hfit
  obtain ⟨u, hrun, hstatus, hpix⟩ := runAll_pixwCommands_frame hfit
  exact ⟨_, u, exec_embed_ok hlen hfit, hrun, hstatus, hpix⟩

end Sys2Proof.Machine
end

section
/-! EXTRACT (`44_extract.md`): which of its three outcomes it ends in (R179, R180), what it reads (R181,
R187), that a stream which carries a frame gives the frame's payload back (R184), and the host's own BITS2Is
(R189). -/

namespace Sys2Proof.Machine

/-! ### The three outcomes -/

/-- Where the declared frame fits, EXTRACT ends OK, and nowhere else; where CAP < 32 it is truncated; in
between there is no hidden data (R179, R180). -/
theorem exec_extract_outcome (s : State) :
    ∃ t, exec .extract s = .next t ∧ (t.status = .truncated ↔ s.cap < 32) ∧
      (t.status = .noHiddenData ↔ 32 ≤ s.cap ∧ s.cap < 32 + s.declaredLength.toNat * 8) ∧
      (t.status = .ok ↔ 32 + s.declaredLength.toNat * 8 ≤ s.cap) := by
  rcases Nat.lt_or_ge s.cap 32 with hsmall | hheader
  · refine ⟨_, exec_extract_truncated hsmall, ?_⟩
    simp only [State.raiseExtract_status, reduceCtorEq, true_iff, false_iff]
    omega
  rcases Nat.lt_or_ge s.cap (32 + s.declaredLength.toNat * 8) with hover | hfit
  · refine ⟨_, exec_extract_noHiddenData hheader hover, ?_⟩
    simp only [State.raiseExtract_status, reduceCtorEq, true_iff, false_iff]
    omega
  · refine ⟨_, exec_extract_ok hfit, ?_⟩
    simp only [State.finish_status, reduceCtorEq, true_iff, false_iff]
    omega

/-! ### What EXTRACT reads -/

/-- The reads of the header are those of channels 0 to 31 (R179). -/
theorem State.streamReads_header (s : State) :
    s.streamReads 0 32 = (List.range 32).map fun k => .pixRead (k / s.c) := by
  simp only [reads_eq, Nat.zero_add]

/-- The accesses of a successful EXTRACT, as R181 lists them. -/
theorem accesses_append_extractAccesses (s : State) :
    s.accesses ++ s.extractAccesses = s.accesses ++ ((List.range 32).map fun k => .pixRead (k / s.c)) ++
      (List.range s.declaredLength.toNat).flatMap fun j =>
        ((List.range 8).map fun t => .pixRead ((32 + 8 * j + t) / s.c)) ++ [.outWrite j] := by
  simp only [State.extractAccesses, State.payloadAccesses, reads_eq, Nat.zero_add,
    List.append_assoc]

theorem pixWrite_notMem_streamReads (s : State) (p pos n : Nat) :
    Access.pixWrite p ∉ s.streamReads pos n := by
  simp [State.streamReads]

/-- EXTRACT adds no pixel write to the accesses (R186). -/
theorem Ends.extract_accesses {s t : State} (he : Ends .extract s t) :
    ∃ new, t.accesses = s.accesses ++ new ∧ ∀ p, Access.pixWrite p ∉ new := by
  cases he with
  | refused h => exact h.elim
  | extractTruncated => exact ⟨[], (List.append_nil _).symm, fun p => List.not_mem_nil⟩
  | extractNoHiddenData => exact ⟨s.streamReads 0 32, rfl, fun p => pixWrite_notMem_streamReads s p 0 32⟩
  | extractOk =>
    refine ⟨s.extractAccesses, rfl, fun p => ?_⟩
    simp [State.extractAccesses, State.payloadAccesses, pixWrite_notMem_streamReads]

/-! ### States that agree on the declared frame -/

/-- Two states of the same capacity carry the same bits in the channels of the frame the first declares
(R187). -/
structure State.SameDeclaredFrame (s1 s2 : State) : Prop where
  cap : s1.cap = s2.cap
  bit : ∀ k, k < 32 + 8 * s1.declaredLength.toNat → s1.streamBit k = s2.streamBit k

namespace State.SameDeclaredFrame

variable {s1 s2 : State} (hsame : State.SameDeclaredFrame s1 s2)
include hsame

theorem streamBits {pos n : Nat} (h : pos + n ≤ 32 + 8 * s1.declaredLength.toNat) :
    s1.streamBits pos n = s2.streamBits pos n :=
  streamBits_congr_range fun k _ hk => hsame.bit k (by omega)

theorem declaredLength : s1.declaredLength = s2.declaredLength :=
  congrArg bitsToInt (hsame.streamBits (by omega))

theorem extractedOut : s1.extractedOut = s2.extractedOut := by
  have hpayload : s1.streamPayload 32 s1.declaredLength.toNat =
      s2.streamPayload 32 s1.declaredLength.toNat := by
    refine List.map_congr_left fun j hj => ?_
    have hj' : j < s1.declaredLength.toNat := List.mem_range.1 hj
    rw [State.streamByte, State.streamByte, hsame.streamBits (by omega)]
  rw [State.extractedOut, State.extractedOut, hpayload, hsame.declaredLength]

end State.SameDeclaredFrame

/-- Whichever way EXTRACT ends on one state, on a state with the same declared frame it ends with the same
STATUS, RES and OUT (R187). -/
theorem Ends.extract_sameDeclaredFrame {s1 s2 t1 : State} (he : Ends .extract s1 t1)
    (hsame : State.SameDeclaredFrame s1 s2) :
    ∃ t2, exec .extract s2 = .next t2 ∧
      t1.status = t2.status ∧ t1.res = t2.res ∧ t1.out = t2.out := by
  cases he with
  | refused h => exact h.elim
  | extractTruncated h => exact ⟨_, exec_extract_truncated (hsame.cap ▸ h), rfl, rfl, rfl⟩
  | extractNoHiddenData h hl =>
    exact ⟨_, exec_extract_noHiddenData (hsame.cap ▸ h) (hsame.declaredLength ▸ hsame.cap ▸ hl),
      rfl, rfl, rfl⟩
  | extractOk h =>
    exact ⟨_, exec_extract_ok (hsame.declaredLength ▸ hsame.cap ▸ h), rfl,
      congrArg (fun l => some (ResVal.olen l)) hsame.declaredLength, congrArg some hsame.extractedOut⟩

/-! ### A stream that carries a frame -/

/-- A run of stream bits is a slice of any longer run from position 0 (R114). -/
theorem State.streamBits_eq_slice {s : State} {l : List Bit} (hl : s.streamBits 0 l.length = l)
    {pos n : Nat} (h : pos + n ≤ l.length) : s.streamBits pos n = (l.drop pos).take n := by
  obtain ⟨d, hd⟩ := Nat.exists_eq_add_of_le h
  rw [hd, State.streamBits_append, State.streamBits_append, Nat.zero_add, List.append_assoc] at hl
  rw [← hl, List.drop_left' (State.length_streamBits s 0 pos),
    List.take_left' (State.length_streamBits s pos n)]

/-- The first 32 bits of the frame spell the payload's length (R80, R137). -/
theorem bitsToInt_take_frame (s : State) : bitsToInt (s.frame.take 32) = BitVec.ofNat 32 s.plen := by
  rw [State.frame, frameBits, bytesToBits_append, List.take_left' (by simp), bitsToInt_header,
    bytesToInt_intToBytes]

/-- Behind the header the frame spells the payload's bytes in order (R80). -/
theorem slice_frame_payload (s : State) {j : Nat} (hj : j < s.inp.toList.length) :
    (s.frame.drop (32 + 8 * j)).take 8 = byteBits s.inp.toList[j] := by
  rw [State.frame, frameBits, bytesToBits_append, ← List.drop_drop, List.drop_left' (by simp),
    drop_byte _ j hj]

section
variable {s t : State} (hframe : t.streamBits 0 s.frame.length = s.frame)
include hframe

/-- A stream that carries the frame of a payload declares the payload's length (R184). -/
theorem declaredLength_of_frame : t.declaredLength = BitVec.ofNat 32 s.plen := by
  rw [State.declaredLength, State.streamBits_eq_slice hframe (by simp [required]; omega),
    List.drop_zero, bitsToInt_take_frame]

/-- A stream that carries the frame of a payload spells the payload behind the header (R184). -/
theorem streamPayload_of_frame : t.streamPayload 32 s.plen = s.inp.toList := by
  refine List.ext_getElem (by simp [State.plen]) fun j hj hj' => ?_
  rw [State.length_streamPayload] at hj
  have hslice : t.streamBits (32 + 8 * j) 8 = byteBits s.inp.toList[j] := by
    rw [State.streamBits_eq_slice hframe (by simp [required]; omega), slice_frame_payload s hj']
  simp only [State.streamPayload, List.getElem_map, List.getElem_range, State.streamByte, hslice,
    bitsToInt_byteBits]

/-- EXTRACT of a stream that carries the frame of a payload gives the payload back (R184). -/
theorem exec_extract_of_frame (hlen : s.plen < Config.lengthLimit) (hfit : required s.plen ≤ t.cap) :
    ∃ u o, exec .extract t = .next u ∧ u.status = .ok ∧
      u.res = some (.olen (BitVec.ofNat 32 s.plen)) ∧ u.out = some o ∧ o.toList = s.inp.toList := by
  have hdeclared := declaredLength_of_frame hframe
  have hL : t.declaredLength.toNat = s.plen := by rw [hdeclared, toNat_length hlen]
  refine ⟨_, t.extractedOut, exec_extract_ok (by rw [required] at hfit; omega), rfl, ?_, rfl, ?_⟩
  · rw [State.finish_res, hdeclared]
  · rw [State.extractedOut_toList, hL, streamPayload_of_frame hframe]

end

/-- After EMBED the stream carries the frame (R164 c). -/
theorem streamBits_frame_of_embeddedPix {s t : State} (hfit : required s.plen ≤ s.cap) (hw : s.pix.wf)
    (ht : t.pix = s.embeddedPix) : t.streamBits 0 s.frame.length = s.frame := by
  rw [embed_streamBits s t hfit hw ht 0 s.frame.length (by simp), List.drop_zero, List.take_length]

/-! ### The host's own BITS2Is -/

/-- The number eight stream bits spell is the byte of the stream (R181). -/
theorem bitsToInt_streamBits_byte (s : State) (pos : Nat) :
    bitsToInt (s.streamBits pos 8) = (s.streamByte pos).setWidth 32 := by
  have hlt : (bitsToInt (s.streamBits pos 8)).toNat < 2 ^ 8 := by
    simpa using bitsToInt_lt (l := s.streamBits pos 8) (by simp)
  apply BitVec.eq_of_toNat_eq
  rw [State.streamByte, BitVec.toNat_setWidth, BitVec.toNat_setWidth]
  omega

/-- Equal images have equal stream bytes (R114). -/
theorem State.streamByte_congr {s t : State} (h : s.pix = t.pix) (pos : Nat) :
    s.streamByte pos = t.streamByte pos := by
  rw [State.streamByte, State.streamByte, State.streamBits_congr h]

/-- BITS2I 8 where 8 bits remain gives their byte (R117). -/
theorem exec_bits2i_8 {s : State} {pos : Nat} (hs : s.strm = .opened pos) (h : pos + 8 ≤ s.cap) :
    exec (.bits2i 8#6) s = .next (((s.logAll (s.streamReads pos 8)).setStrm (.opened (pos + 8))).finish
      (some (.number ((s.streamByte pos).setWidth 32)))) := by
  rw [← bitsToInt_streamBits_byte]
  exact exec_bits2i_ok (n := 8#6) (by decide) hs (Nat.le_sub_of_add_le' h)

/-- The last of n + 1 BITS2I 8 in a row gives byte n of the stream from POS on, and POS has moved on by their
bits (R189). -/
theorem runAll_bits2i_8 (n : Nat) {s : State} {pos : Nat} (hs : s.strm = .opened pos)
    (h : pos + 8 * (n + 1) ≤ s.cap) :
    ∃ u, runAll (List.replicate (n + 1) (.bits2i 8#6)) s = .next u ∧
      u.res = some (.number ((s.streamByte (pos + 8 * n)).setWidth 32)) ∧
      u.strm = .opened (pos + 8 * (n + 1)) := by
  induction n generalizing s pos with
  | zero =>
    rw [List.replicate_succ, runAll, exec_bits2i_8 hs h]
    exact ⟨_, rfl, rfl, rfl⟩
  | succ n ih =>
    let s1 := ((s.logAll (s.streamReads pos 8)).setStrm (.opened (pos + 8))).finish
      (some (.number ((s.streamByte pos).setWidth 32)))
    have hcap : s1.cap = s.cap := rfl
    obtain ⟨u, hrun, hres, hstrm⟩ := ih (s := s1) (pos := pos + 8) rfl (by omega)
    rw [State.streamByte_congr (s := s1) (t := s) rfl,
      show pos + 8 + 8 * n = pos + 8 * (n + 1) by omega] at hres
    refine ⟨u, ?_, hres, hstrm.trans (congrArg Stream.opened (by omega))⟩
    rw [List.replicate_succ, runAll, exec_bits2i_8 hs (by omega)]
    exact hrun

/-- SOPEN and BITS2I 32 give the declared length and leave the stream open behind the header (R189). -/
theorem runAll_sopen_bits2i_32 {s : State} (h : 32 ≤ s.cap) :
    ∃ u, (∀ is, runAll (.sopen :: .bits2i 32#6 :: is) s = runAll is u) ∧
      u.res = some (.number s.declaredLength) ∧ u.strm = .opened 32 ∧ u.pix = s.pix ∧
      u.cap = s.cap := by
  let s1 := (s.setStrm (.opened 0)).finish none
  let u := ((s1.logAll (s.streamReads 0 32)).setStrm (.opened 32)).finish
    (some (.number s.declaredLength))
  have hopen : exec .sopen s = .next s1 := exec_sopen s
  have hheader : exec (.bits2i 32#6) s1 = .next u := exec_bits2i_ok (n := 32#6) le_rfl rfl h
  refine ⟨u, fun is => ?_, rfl, rfl, rfl, rfl⟩
  simp only [runAll, hopen, hheader]

/-! ### The statements -/

/-- Settles O38: after EMBED the stream carries the frame, and EXTRACT of such a stream gives the payload
back. -/
theorem extractOfEmbedIsThePayload : Obligations.ExtractOfEmbedIsThePayload := by
  unfold Obligations.ExtractOfEmbedIsThePayload
  intro s hw hlen hfits
  have hfit : required s.plen ≤ s.cap := by
    have hreq : required s.plen = 32 + 8 * s.inp.len := by rw [required, State.plen]; omega
    rwa [hreq]
  let t := ((s.setPix s.embeddedPix).logAll s.embedAccesses).finish none
  have hframe : t.streamBits 0 s.frame.length = s.frame := streamBits_frame_of_embeddedPix hfit hw rfl
  obtain ⟨u, o, hu, hok, hres, hout, hbytes⟩ := exec_extract_of_frame hframe hlen hfit
  exact ⟨t, u, o, exec_embed_ok hlen hfit, rfl, hu, hok, hres, hout, hbytes⟩

/-- Settles O31: the header cannot be read. -/
theorem extractOfASmallImageIsTruncated : Obligations.ExtractOfASmallImageIsTruncated := by
  unfold Obligations.ExtractOfASmallImageIsTruncated
  exact fun s h => exec_extract_truncated h

/-- Settles O32: the header is read and the declared length turned away. -/
theorem extractOfAnOversizedFrameIsNoHiddenData :
    Obligations.ExtractOfAnOversizedFrameIsNoHiddenData := by
  unfold Obligations.ExtractOfAnOversizedFrameIsNoHiddenData
  intro s hheader hover
  rw [← declared_eq, Nat.mul_comm 8] at hover
  rw [← State.streamReads_header]
  exact exec_extract_noHiddenData hheader hover

/-- Settles O33: the number of the first 32 LSBs is the declared length, which decides the outcome. -/
theorem extractOutcomeIsDecidedByTheDeclaredLength :
    Obligations.ExtractOutcomeIsDecidedByTheDeclaredLength := by
  unfold Obligations.ExtractOutcomeIsDecidedByTheDeclaredLength
  intro s L hL
  obtain rfl : L = s.declaredLength.toNat := hL.trans (declared_eq s).symm
  rw [Nat.mul_comm 8]
  exact exec_extract_outcome s

/-- Settles O34: OUT is `extractedOut`, canonical and of the declared length, read byte by byte. -/
theorem extractRecoversTheDeclaredBytes : Obligations.ExtractRecoversTheDeclaredBytes := by
  unfold Obligations.ExtractRecoversTheDeclaredBytes
  refine ⟨decode_op 0xC, ?_⟩
  intro s L hL hfit
  obtain rfl : L = s.declaredLength.toNat := hL.trans (declared_eq s).symm
  refine ⟨s.extractedOut, ?run, s.extractedOut_wf, rfl, s.declaredLength.isLt, fun j hj => ?byte⟩
  case run =>
    rw [exec_extract_ok (by rwa [Nat.mul_comm]), ← accesses_append_extractAccesses, BitVec.ofNat_toNat,
      BitVec.setWidth_eq]
    rfl
  case byte => rw [extracted_read s j hj, streamByte_toNat]

/-- Settles O35: the state EXTRACT leaves has the inputs of the state before, so that EXTRACT ends the same
way again. -/
theorem extractIsRepeatableAndLeavesTheImage : Obligations.ExtractIsRepeatableAndLeavesTheImage := by
  unfold Obligations.ExtractIsRepeatableAndLeavesTheImage
  intro s
  obtain ⟨t, ht, he⟩ := exec_ends .extract s
  obtain ⟨hw, hh, hc, hinp, -⟩ := he.host_frame
  have hpix : t.pix = s.pix := he.pix_frame nofun nofun
  obtain ⟨u, hu, hsame⟩ := he.sameOutcome ⟨hw.symm, hh.symm, hc.symm, hpix.symm, hinp.symm⟩ (by simp)
  obtain ⟨new, haccesses, hnew⟩ := he.extract_accesses
  refine ⟨t, u, ht, hu, hpix, hsame.status.symm, hsame.res.symm, (hsame.out rfl).symm,
    fun p new' haccesses' => ?_⟩
  obtain rfl : new = new' := List.append_cancel_left (haccesses.symm.trans haccesses')
  exact hnew p

/-- Settles O36: the way EXTRACT ends on the first state has its like on the second. -/
theorem extractDependsOnlyOnTheDeclaredLsbs : Obligations.ExtractDependsOnlyOnTheDeclaredLsbs := by
  unfold Obligations.ExtractDependsOnlyOnTheDeclaredLsbs
  intro s1 s2 hw hh hc hbits
  have hcap : s1.cap = s2.cap := by rw [State.cap, State.cap, hw, hh, hc]
  have hsame : State.SameDeclaredFrame s1 s2 := ⟨hcap, fun k hk => by
    rw [streamBit_eq, streamBit_eq]
    exact hbits k (by rwa [← declared_eq])⟩
  obtain ⟨t1, ht1, he⟩ := exec_ends .extract s1
  obtain ⟨t2, ht2, houtcome⟩ := he.extract_sameDeclaredFrame hsame
  exact ⟨t1, t2, ht1, ht2, houtcome⟩

/-- Settles O37: a header of zeros declares no byte. -/
theorem extractOfAnEvenImageIsTheEmptyPayload : Obligations.ExtractOfAnEvenImageIsTheEmptyPayload := by
  unfold Obligations.ExtractOfAnEvenImageIsTheEmptyPayload
  intro s hheader heven
  have hzero : s.declaredLength = 0 := by
    apply BitVec.eq_of_toNat_eq
    rw [declared_eq]
    refine Finset.sum_eq_zero fun k hk => ?_
    rw [heven k (Finset.mem_range.1 hk)]
    exact Nat.zero_mul _
  refine ⟨_, s.extractedOut, exec_extract_ok (by rw [hzero]; exact hheader), rfl, ?_, rfl, ?_⟩
  · rw [State.finish_res, hzero]
  · rw [State.extractedOut_toList, hzero]
    rfl

/-- Settles O40: the host's BITS2I 32 reads EXTRACT's header, each BITS2I 8 a byte of its payload. -/
theorem hostDrivenExtractionAgrees : Obligations.HostDrivenExtractionAgrees := by
  unfold Obligations.HostDrivenExtractionAgrees
  intro s t o h hok hout
  obtain ⟨hfit, rfl⟩ := extract_ok_inv h hok
  obtain rfl : s.extractedOut = o := Option.some.inj hout
  obtain ⟨v, hv, hres, hstrm, hpix, hcap⟩ := runAll_sopen_bits2i_32 (s := s) (by omega)
  refine ⟨⟨v, hv [], ?length, hstrm⟩, fun j hj => ?byte⟩
  case length =>
    rw [hres, State.extractedOut, BitVec.ofNat_toNat, BitVec.setWidth_eq]
  case byte =>
    have hj' : j < s.declaredLength.toNat := hj
    rw [hv, extracted_read s j hj', ← State.streamByte_congr hpix]
    exact runAll_bits2i_8 j hstrm (by omega)

end Sys2Proof.Machine
end

section
/-! Failures (`60_exceptions.md`): the codes of STATUS (R196), and what each failure leaves in the memories
and registers (R203, R204). -/

namespace Sys2Proof.Machine

/-! ### The ways an operation can fail -/

/-- An operation that does not end OK was refused, or is a BITS2I that ran out of bits, an EMBED whose
payload is too large, or an EXTRACT that raised (R92, R195, R203). -/
theorem Ends.failure_cases {i : Instr} {s t : State} (he : Ends i s t) (hok : t.status ≠ .ok) :
    t = s.refuse ∨
    (∃ n, i = .bits2i n ∧ t = (s.setStrm (.opened s.cap)).raise .streamExhausted) ∨
    (i = .embed ∧ t = s.raise .payloadTooLarge) ∨
    (i = .extract ∧ ∃ reads k, (k = .truncated ∨ k = .noHiddenData) ∧
      t = (s.logAll reads).raiseExtract k) := by
  cases he with
  | refused => exact .inl rfl
  | bits2iShort => exact .inr (.inl ⟨_, rfl, rfl⟩)
  | embedTooLarge => exact .inr (.inr (.inl ⟨rfl, rfl⟩))
  | extractTruncated => exact .inr (.inr (.inr ⟨rfl, [], _, .inl rfl, by rw [State.logAll_nil]⟩))
  | extractNoHiddenData => exact .inr (.inr (.inr ⟨rfl, _, _, .inr rfl, rfl⟩))
  | _ => exact absurd rfl hok

/-! ### The statements -/

/-- Settles O43: nothing is said of an operation that ends OK, and each way to fail leaves its named
state. -/
theorem failuresLeaveTheImageAndTheirNamedState : Obligations.FailuresLeaveTheImageAndTheirNamedState := by
  unfold Obligations.FailuresLeaveTheImageAndTheirNamedState
  intro i s t h
  by_cases hok : t.status = .ok
  · simp [hok]
  rcases (ends_of_exec h).failure_cases hok with
    rfl | ⟨n, rfl, rfl⟩ | ⟨rfl, rfl⟩ | ⟨rfl, reads, k, hk, rfl⟩
  case inl => exact ⟨fun _ => rfl, by simp, nofun, fun _ => rfl, fun _ hlegal => absurd rfl hlegal⟩
  case inr.inl =>
    exact ⟨fun _ => rfl, by simp, fun _ => rfl, nofun,
      fun _ _ => ⟨rfl, rfl, rfl, rfl, rfl, rfl, rfl, rfl, rfl, nofun⟩⟩
  case inr.inr.inl =>
    exact ⟨fun _ => rfl, by simp, nofun, nofun,
      fun _ _ => ⟨rfl, rfl, rfl, rfl, rfl, rfl, rfl, rfl, rfl, nofun⟩⟩
  case inr.inr.inr =>
    obtain ⟨hshort, hlegal⟩ : k ≠ .streamExhausted ∧ k ≠ .illegalOp := by
      rcases hk with rfl | rfl <;> decide
    exact ⟨fun _ => rfl, fun _ => rfl, fun h => absurd h hshort, fun h => absurd h hlegal,
      fun _ _ => ⟨rfl, rfl, rfl, rfl, rfl, rfl, rfl, rfl, rfl, fun _ => ⟨rfl, rfl⟩⟩⟩

/-- Settles O53: the codes by the definition, and no STATUS has code 6 by its constructors. -/
theorem statusCodesAreTheTable : Obligations.StatusCodesAreTheTable := by
  unfold Obligations.StatusCodesAreTheTable
  refine ⟨rfl, rfl, rfl, rfl, rfl, rfl, rfl, fun x => ?_⟩
  cases x <;> decide

end Sys2Proof.Machine
end

section
/-! Reset and hazards (`70_reset_and_hazards.md`): what the reset event clears (R225), what an open stream
delivers of a write ahead of it and of one behind it (R234), and that the payload survives changes outside
the frame's LSBs (R237). -/

namespace Sys2Proof.Machine

/-! ### The reset event -/

/-- Settles O49: the step performs the reset event, which clears these registers and keeps the rest. -/
theorem resetClearsTheBlockAndKeepsTheHostState :
    Obligations.ResetClearsTheBlockAndKeepsTheHostState := by
  unfold Obligations.ResetClearsTheBlockAndKeepsTheHostState
  exact ⟨fun s rest hp => step_pending hp, rfl, rfl, rfl, rfl, rfl, rfl, rfl⟩

/-! ### Changes outside the frame -/

/-- Settles O39: the changed image still carries the frame that EMBED wrote, and EXTRACT of such a stream
gives the payload back. -/
theorem extractSurvivesChangesOutsideTheFrame : Obligations.ExtractSurvivesChangesOutsideTheFrame := by
  unfold Obligations.ExtractSurvivesChangesOutsideTheFrame
  intro s t t' hw h hok hw' hh' hc' hbits
  obtain ⟨hlen, hfit, ht⟩ := embed_ok_inv h hok
  have hcap : t'.cap = s.cap := by rw [State.cap, hw', hh', hc', ht]; rfl
  have hpix : t.pix = s.embeddedPix := by rw [ht]; rfl
  have hframe : t.streamBits 0 s.frame.length = s.frame :=
    streamBits_frame_of_embeddedPix hfit hw hpix
  have hframe' : t'.streamBits 0 s.frame.length = s.frame := by
    refine (streamBits_congr_range fun k _ hk => ?_).trans hframe
    rw [State.length_frame, required, State.plen] at hk
    rw [streamBit_eq, streamBit_eq]
    exact hbits k (by omega)
  exact exec_extract_of_frame hframe' hlen (hfit.trans hcap.ge)

/-! ### Writes ahead of an open stream -/

/-- PULLs from POS up to position q end with stream bit q (R115). -/
theorem runAll_pull_upTo {s : State} {pos q : Nat} (hs : s.strm = .opened pos) (hpos : pos ≤ q)
    (hq : q < s.cap) :
    ∃ u, runAll (List.replicate (q - pos + 1) .pull) s = .next u ∧
      u.res = some (.pulled (some (s.streamBit q))) := by
  have hres := runAll_pull_res (k := q - pos) hs (by omega)
  rwa [Nat.add_sub_cancel' hpos] at hres

/-- After PIXW the stream bits of its pixel are the lanes of the group, all others are as before (R148). -/
theorem State.streamBit_afterPixw {i : Nat} {g : List Bit} {s : State} (hw : s.pix.wf)
    (hg : g.length = s.c) (k : Nat) :
    (s.afterPixw i g).streamBit k =
      if i * s.c ≤ k ∧ k < i * s.c + s.c then g.getD (k - i * s.c) 0 else s.streamBit k := by
  rw [State.streamBit, State.read_afterPixw hw hg, apply_ite lsb, lsb_lsbReplace]
  rfl

/-- After a byte is written its stream bit is bit 0 of the byte, all others are as before (R34). -/
theorem State.streamBit_setPix_write {s : State} (hw : s.pix.wf) (a : Nat) (v : Byte) (k : Nat) :
    (s.setPix (s.pix.write a v)).streamBit k = if k = a then lsb v else s.streamBit k := by
  rw [State.streamBit, State.setPix_pix, Memory.read_write hw, apply_ite lsb]
  rfl

/-- The step that carries out a host's byte write (R34). -/
theorem step_writePix {k : Nat} {v : Byte} {s : State} {rest : List HostAction}
    (hp : s.pending = .writePix k v :: rest) (hk : k < s.cap) :
    step s = .next ((s.setPix (s.pix.write k v)).pop rest) :=
  (step_pending hp).trans (hostWritePix_ok (s := s.pop rest) hk v)

/-- Settles O25: each write leaves the stream open at POS, and PULLs up to q deliver the stream bit q of the
state it leaves. -/
theorem openStreamSeesAWriteAheadOfIt : Obligations.OpenStreamSeesAWriteAheadOfIt := by
  unfold Obligations.OpenStreamSeesAWriteAheadOfIt
  refine ⟨?pixw, ?writePix, ?embed⟩
  case pixw =>
    intro i g s pos hw hi hg hs
    refine ⟨s.afterPixw i g, exec_pixw_next hi hg, hs, fun q hpos hq => ?_⟩
    rw [← streamBit_eq, ← State.streamBit_afterPixw hw hg]
    exact runAll_pull_upTo (s := s.afterPixw i g) hs hpos hq
  case writePix =>
    intro k v s rest pos hp hw hk hs
    refine ⟨_, step_writePix hp hk, hs, fun q hpos hq => ?_⟩
    rw [← streamBit_eq, ← lsb_eq, ← State.streamBit_setPix_write hw]
    exact runAll_pull_upTo (s := (s.setPix (s.pix.write k v)).pop rest) hs hpos hq
  case embed =>
    intro s pos hs
    obtain ⟨t, ht, he⟩ := exec_ends .embed s
    obtain ⟨hw, hh, hc, -⟩ := he.host_frame
    have hstrm : t.strm = .opened pos := (he.strm_frame nofun nofun nofun nofun).trans hs
    refine ⟨t, ht, hstrm, fun q hpos hq => ?_⟩
    rw [← streamBit_eq]
    exact runAll_pull_upTo hstrm hpos (by rwa [State.cap, hw, hh, hc])

/-! ### Writes behind an open stream -/

/-- Any number of PULLs deliver the same from both states and leave the same stream. -/
def State.SamePulls (s1 s2 : State) : Prop :=
  ∀ n, ∃ u1 u2, runAll (List.replicate (n + 1) .pull) s1 = .next u1 ∧
    runAll (List.replicate (n + 1) .pull) s2 = .next u2 ∧ u1.res = u2.res ∧ u1.strm = u2.strm

/-- Streams open at one POS over images of one capacity whose bits agree from POS on deliver the same
(R115, R234). -/
theorem State.samePulls_of_streamBit {s1 s2 : State} {pos : Nat} (hs1 : s1.strm = .opened pos)
    (hs2 : s2.strm = .opened pos) (hcap : s1.cap = s2.cap) (hle : pos ≤ s1.cap)
    (hbit : ∀ k, pos ≤ k → k < s1.cap → s1.streamBit k = s2.streamBit k) : s1.SamePulls s2 := by
  intro n
  obtain ⟨u1, hrun1, hres1, hstrm1⟩ := runAll_pull n hs1 hle
  obtain ⟨u2, hrun2, hres2, hstrm2⟩ := runAll_pull n hs2 (hcap ▸ hle)
  refine ⟨u1, u2, hrun1, hrun2, ?_, by rw [hstrm1, hstrm2, hcap]⟩
  rw [hres1, hres2, ← hcap]
  split
  · next hlt => rw [hbit _ (Nat.le_add_right _ _) hlt]
  · rfl

/-- Settles O54: the write leaves the stream bits from POS on as they were; for two PIXWs of one pixel they
are the lanes in which the groups agree. -/
theorem streamIgnoresWritesBehindIt : Obligations.StreamIgnoresWritesBehindIt := by
  unfold Obligations.StreamIgnoresWritesBehindIt
  refine ⟨?agree, ?writePix, ?pixw, ?twoPixws⟩
  case agree =>
    intro s1 s2 pos hw hh hc hs1 hs2 hle hbits
    refine State.samePulls_of_streamBit hs1 hs2 (by rw [State.cap, State.cap, hw, hh, hc]) hle
      fun k hpos hk => ?_
    rw [streamBit_eq, streamBit_eq]
    exact hbits k hpos hk
  case writePix =>
    intro k v s rest pos hp hw hs hle hk
    refine ⟨_, step_writePix hp (hk.trans_le hle),
      State.samePulls_of_streamBit hs hs rfl hle fun q hpos _ => ?_⟩
    exact ((State.streamBit_setPix_write hw k v q).trans (if_neg (by omega))).symm
  case pixw =>
    intro i g s pos hw hi hg hs hle hbehind
    refine ⟨_, exec_pixw_next hi hg, State.samePulls_of_streamBit hs hs rfl hle fun q hpos _ => ?_⟩
    rw [State.streamBit_afterPixw hw hg, if_neg (by omega)]
  case twoPixws =>
    intro i g g' s pos hw hi hg hg' hs hle hlanes
    refine ⟨_, _, exec_pixw_next hi hg, exec_pixw_next hi hg',
      State.samePulls_of_streamBit hs hs rfl hle fun q hpos _ => ?_⟩
    rw [State.streamBit_afterPixw hw hg, State.streamBit_afterPixw hw hg']
    split
    · exact hlanes (q - i * s.c) (by omega) (by omega)
    · rfl

end Sys2Proof.Machine
end
